-- ==== Sys2Proof/Word.lean ====
section
/-! DEFINITION. The fixed widths of the hardware (00_scope.md R8) and the two index ranges. -/

namespace Sys2Proof

/-- An 8-bit byte: a general register, a memory byte, a timer counter (R8). -/
abbrev Byte := BitVec 8

/-- A 16-bit word: the index register, the program counter, a stack entry, an instruction (R8). -/
abbrev Word := BitVec 16

/-- A general-register index, always in 0..15 (10_state.md R22). -/
abbrev Reg := Fin 16

/-- A logical key code, always in 0..15 (R8; 60_exceptions.md R252, R253). -/
abbrev Key := Fin 16

/-- `VF`, the register that doubles as the flag (10_state.md R21). -/
abbrev Reg.vF : Reg := 15

/-- `zext_16` of an immediate or of a byte (00_scope.md R10, 30_encoding.md R74). -/
abbrev zext16 {w : Nat} (v : BitVec w) : Word := v.setWidth 16

end Sys2Proof
end

