-- ==== Sys2Proof/Syntax.lean ====
section
/-! DEFINITION. The 33 instructions, one constructor per row of the opcode map (30_encoding.md R85), in its order.
Operands have the widths of R72 (`X`, `Y`: a register; `NN`: 8 bits; `NNN`: 12 bits; `N`: 4 bits), so no term of this
type has an operand out of range (10_state.md R22). -/

namespace Sys2Proof

inductive Instr where
  /-- `00E0` CLS -/
  | cls
  /-- `00EE` RET -/
  | ret
  /-- `1NNN` JP addr -/
  | jp (nnn : BitVec 12)
  /-- `2NNN` CALL addr -/
  | call (nnn : BitVec 12)
  /-- `3XNN` SE Vx, byte -/
  | seByte (x : Reg) (nn : Byte)
  /-- `4XNN` SNE Vx, byte -/
  | sneByte (x : Reg) (nn : Byte)
  /-- `5XY0` SE Vx, Vy -/
  | seReg (x y : Reg)
  /-- `9XY0` SNE Vx, Vy -/
  | sneReg (x y : Reg)
  /-- `6XNN` LD Vx, byte -/
  | ldByte (x : Reg) (nn : Byte)
  /-- `7XNN` ADD Vx, byte -/
  | addByte (x : Reg) (nn : Byte)
  /-- `8XY0` LD Vx, Vy -/
  | ldReg (x y : Reg)
  /-- `8XY1` OR Vx, Vy -/
  | orReg (x y : Reg)
  /-- `8XY2` AND Vx, Vy -/
  | andReg (x y : Reg)
  /-- `8XY3` XOR Vx, Vy -/
  | xorReg (x y : Reg)
  /-- `8XY4` ADD Vx, Vy -/
  | addReg (x y : Reg)
  /-- `8XY5` SUB Vx, Vy -/
  | sub (x y : Reg)
  /-- `8XY7` SUBN Vx, Vy -/
  | subn (x y : Reg)
  /-- `8XY6` SHR Vx, Vy -/
  | shr (x y : Reg)
  /-- `8XYE` SHL Vx, Vy -/
  | shl (x y : Reg)
  /-- `ANNN` LD I, addr -/
  | ldI (nnn : BitVec 12)
  /-- `BNNN` JP V0, addr -/
  | jpV0 (nnn : BitVec 12)
  /-- `DXYN` DRW Vx, Vy, n -/
  | drw (x y : Reg) (n : BitVec 4)
  /-- `CXNN` RND Vx, byte -/
  | rnd (x : Reg) (nn : Byte)
  /-- `EX9E` SKP Vx -/
  | skp (x : Reg)
  /-- `EXA1` SKNP Vx -/
  | sknp (x : Reg)
  /-- `FX07` LD Vx, DT -/
  | ldVxDt (x : Reg)
  /-- `FX0A` LD Vx, K -/
  | ldVxK (x : Reg)
  /-- `FX15` LD DT, Vx -/
  | ldDtVx (x : Reg)
  /-- `FX18` LD ST, Vx -/
  | ldStVx (x : Reg)
  /-- `FX1E` ADD I, Vx -/
  | addI (x : Reg)
  /-- `FX33` LD B, Vx -/
  | ldBVx (x : Reg)
  /-- `FX55` LD [I], Vx -/
  | ldMemVx (x : Reg)
  /-- `FX65` LD Vx, [I] -/
  | ldVxMem (x : Reg)
  deriving DecidableEq, Repr

end Sys2Proof
end

