-- ==== Sys2Proof/Decode.lean ====
section
/-! DEFINITION. Fetch-independent decode and encode (30_encoding.md R70 to R74, R83 to R88). Decode is total: every word
is an instruction of the opcode map or `UNKNOWN`, carrying the raw word. -/

namespace Sys2Proof

/-- The answer of decode on a word: an instruction, or `UNKNOWN` with the raw 16-bit value (R83). -/
inductive Decoded where
  | instr (i : Instr)
  | unknown (ins : Word)
  deriving DecidableEq, Repr

/-- The answer of decode on a byte string: R70 needs two bytes; fewer are refused by name. -/
inductive DecodedBytes where
  | instr (i : Instr) (rest : List Byte)
  | unknown (ins : Word)
  | truncated
  deriving DecidableEq, Repr

/-! ## Fields (R71, R72) -/

/-- nibble `n0 = ins[15:12]`, the major opcode -/
def fieldOp (ins : Word) : BitVec 4 := ins.extractLsb' 12 4
/-- `X = ins[11:8]` -/
def fieldX (ins : Word) : Reg := (ins.extractLsb' 8 4).toFin
/-- `Y = ins[7:4]` -/
def fieldY (ins : Word) : Reg := (ins.extractLsb' 4 4).toFin
/-- `N = ins[3:0]` -/
def fieldN (ins : Word) : BitVec 4 := ins.extractLsb' 0 4
/-- `NN = ins[7:0]` -/
def fieldNN (ins : Word) : Byte := ins.extractLsb' 0 8
/-- `NNN = ins[11:0]` -/
def fieldNNN (ins : Word) : BitVec 12 := ins.extractLsb' 0 12

/-! ## Decode (R83, R84, R85): dispatch on the nibble pattern -/

/-- Group 0: only `00E0` and `00EE` are instructions (R86). -/
def decodeGroup0 (ins : Word) : Decoded :=
  if ins = 0x00E0#16 then .instr .cls
  else if ins = 0x00EE#16 then .instr .ret
  else .unknown ins

/-- Group 8: the low nibble is the sub-opcode; 8 to D and F are `UNKNOWN` (R86). -/
def decodeGroup8 (ins : Word) : Decoded :=
  match (fieldN ins).toNat with
  | 0x0 => .instr (.ldReg (fieldX ins) (fieldY ins))
  | 0x1 => .instr (.orReg (fieldX ins) (fieldY ins))
  | 0x2 => .instr (.andReg (fieldX ins) (fieldY ins))
  | 0x3 => .instr (.xorReg (fieldX ins) (fieldY ins))
  | 0x4 => .instr (.addReg (fieldX ins) (fieldY ins))
  | 0x5 => .instr (.sub (fieldX ins) (fieldY ins))
  | 0x6 => .instr (.shr (fieldX ins) (fieldY ins))
  | 0x7 => .instr (.subn (fieldX ins) (fieldY ins))
  | 0xE => .instr (.shl (fieldX ins) (fieldY ins))
  | _ => .unknown ins

/-- Group E: the low byte is the sub-opcode. -/
def decodeGroupE (ins : Word) : Decoded :=
  if fieldNN ins = 0x9E#8 then .instr (.skp (fieldX ins))
  else if fieldNN ins = 0xA1#8 then .instr (.sknp (fieldX ins))
  else .unknown ins

/-- Group F: the low byte is the sub-opcode. -/
def decodeGroupF (ins : Word) : Decoded :=
  if fieldNN ins = 0x07#8 then .instr (.ldVxDt (fieldX ins))
  else if fieldNN ins = 0x0A#8 then .instr (.ldVxK (fieldX ins))
  else if fieldNN ins = 0x15#8 then .instr (.ldDtVx (fieldX ins))
  else if fieldNN ins = 0x18#8 then .instr (.ldStVx (fieldX ins))
  else if fieldNN ins = 0x1E#8 then .instr (.addI (fieldX ins))
  else if fieldNN ins = 0x33#8 then .instr (.ldBVx (fieldX ins))
  else if fieldNN ins = 0x55#8 then .instr (.ldMemVx (fieldX ins))
  else if fieldNN ins = 0x65#8 then .instr (.ldVxMem (fieldX ins))
  else .unknown ins

/-- `decode` of R83 on a 16-bit word. -/
def decode (ins : Word) : Decoded :=
  match (fieldOp ins).toNat with
  | 0x0 => decodeGroup0 ins
  | 0x1 => .instr (.jp (fieldNNN ins))
  | 0x2 => .instr (.call (fieldNNN ins))
  | 0x3 => .instr (.seByte (fieldX ins) (fieldNN ins))
  | 0x4 => .instr (.sneByte (fieldX ins) (fieldNN ins))
  | 0x5 => if fieldN ins = 0#4 then .instr (.seReg (fieldX ins) (fieldY ins)) else .unknown ins
  | 0x6 => .instr (.ldByte (fieldX ins) (fieldNN ins))
  | 0x7 => .instr (.addByte (fieldX ins) (fieldNN ins))
  | 0x8 => decodeGroup8 ins
  | 0x9 => if fieldN ins = 0#4 then .instr (.sneReg (fieldX ins) (fieldY ins)) else .unknown ins
  | 0xA => .instr (.ldI (fieldNNN ins))
  | 0xB => .instr (.jpV0 (fieldNNN ins))
  | 0xC => .instr (.rnd (fieldX ins) (fieldNN ins))
  | 0xD => .instr (.drw (fieldX ins) (fieldY ins) (fieldN ins))
  | 0xE => decodeGroupE ins
  | _ => decodeGroupF ins

/-- An instruction word from its two bytes, most-significant first (20_memory.md R53, R57). -/
def wordOfBytes (hi lo : Byte) : Word := hi ++ lo

/-- The two bytes of an instruction word as memory holds them: the high byte at the lower address (R70). -/
def bytesOfWord (ins : Word) : List Byte := [ins.extractLsb' 8 8, ins.extractLsb' 0 8]

/-- Decode the instruction at the front of a byte string (R70). -/
def decodeBytes : List Byte → DecodedBytes
  | hi :: lo :: rest =>
    match decode (wordOfBytes hi lo) with
    | .instr i => .instr i rest
    | .unknown ins => .unknown ins
  | _ => .truncated

/-! ## Encode, by the formats of R73 -/

/-- The 4 bits of a register field. -/
def Reg.bits (r : Reg) : BitVec 4 := BitVec.ofFin r

/-- Format `ADDR`: op, NNN. -/
def encAddr (op : BitVec 4) (nnn : BitVec 12) : Word := op ++ nnn
/-- Formats `REG_IMM` and `REG_SUB`: op, X, byte. -/
def encRegByte (op : BitVec 4) (x : Reg) (nn : Byte) : Word := op ++ (x.bits ++ nn)
/-- Formats `REG_REG` and `DRAW`: op, X, Y, low nibble. -/
def encRegReg (op : BitVec 4) (x y : Reg) (n : BitVec 4) : Word := op ++ (x.bits ++ (y.bits ++ n))

/-- The 16-bit word of an instruction, from the pattern column of R85. -/
def encode : Instr → Word
  | .cls => 0x00E0
  | .ret => 0x00EE
  | .jp nnn => encAddr 0x1 nnn
  | .call nnn => encAddr 0x2 nnn
  | .seByte x nn => encRegByte 0x3 x nn
  | .sneByte x nn => encRegByte 0x4 x nn
  | .seReg x y => encRegReg 0x5 x y 0x0
  | .sneReg x y => encRegReg 0x9 x y 0x0
  | .ldByte x nn => encRegByte 0x6 x nn
  | .addByte x nn => encRegByte 0x7 x nn
  | .ldReg x y => encRegReg 0x8 x y 0x0
  | .orReg x y => encRegReg 0x8 x y 0x1
  | .andReg x y => encRegReg 0x8 x y 0x2
  | .xorReg x y => encRegReg 0x8 x y 0x3
  | .addReg x y => encRegReg 0x8 x y 0x4
  | .sub x y => encRegReg 0x8 x y 0x5
  | .subn x y => encRegReg 0x8 x y 0x7
  | .shr x y => encRegReg 0x8 x y 0x6
  | .shl x y => encRegReg 0x8 x y 0xE
  | .ldI nnn => encAddr 0xA nnn
  | .jpV0 nnn => encAddr 0xB nnn
  | .drw x y n => encRegReg 0xD x y n
  | .rnd x nn => encRegByte 0xC x nn
  | .skp x => encRegByte 0xE x 0x9E
  | .sknp x => encRegByte 0xE x 0xA1
  | .ldVxDt x => encRegByte 0xF x 0x07
  | .ldVxK x => encRegByte 0xF x 0x0A
  | .ldDtVx x => encRegByte 0xF x 0x15
  | .ldStVx x => encRegByte 0xF x 0x18
  | .addI x => encRegByte 0xF x 0x1E
  | .ldBVx x => encRegByte 0xF x 0x33
  | .ldMemVx x => encRegByte 0xF x 0x55
  | .ldVxMem x => encRegByte 0xF x 0x65

/-! ## The opcode map as the spec prints it (R85): mask and match of each row, in order -/

/-- One row of R85. -/
structure OpcodeRow where
  mask : Word
  pattern : Word
  deriving DecidableEq, Repr

/-- The row matches a word: `(ins AND mask) = match` (R83). -/
def OpcodeRow.covers (r : OpcodeRow) (ins : Word) : Bool := ins &&& r.mask == r.pattern

/-- Rows 1 to 33 of R85. -/
def opcodeMap : List OpcodeRow :=
  [⟨0xFFFF, 0x00E0⟩, ⟨0xFFFF, 0x00EE⟩, ⟨0xF000, 0x1000⟩, ⟨0xF000, 0x2000⟩, ⟨0xF000, 0x3000⟩, ⟨0xF000, 0x4000⟩,
    ⟨0xF00F, 0x5000⟩, ⟨0xF00F, 0x9000⟩, ⟨0xF000, 0x6000⟩, ⟨0xF000, 0x7000⟩, ⟨0xF00F, 0x8000⟩]
  ++ [⟨0xF00F, 0x8001⟩, ⟨0xF00F, 0x8002⟩, ⟨0xF00F, 0x8003⟩, ⟨0xF00F, 0x8004⟩, ⟨0xF00F, 0x8005⟩, ⟨0xF00F, 0x8007⟩,
    ⟨0xF00F, 0x8006⟩, ⟨0xF00F, 0x800E⟩, ⟨0xF000, 0xA000⟩, ⟨0xF000, 0xB000⟩, ⟨0xF000, 0xD000⟩]
  ++ [⟨0xF000, 0xC000⟩, ⟨0xF0FF, 0xE09E⟩, ⟨0xF0FF, 0xE0A1⟩, ⟨0xF0FF, 0xF007⟩, ⟨0xF0FF, 0xF00A⟩, ⟨0xF0FF, 0xF015⟩,
    ⟨0xF0FF, 0xF018⟩, ⟨0xF0FF, 0xF01E⟩, ⟨0xF0FF, 0xF033⟩, ⟨0xF0FF, 0xF055⟩, ⟨0xF0FF, 0xF065⟩]

/-- The instruction word of a table row's bits: bit 0 is the least significant, bits from `nbits` up are 0. -/
def tableWord (nbits w : Nat) : Word := BitVec.ofNat 16 (w % 2 ^ nbits)

/-- What the decoder reads from a table row's word, laid out as memory holds it. -/
def decodeTableWord (nbits w : Nat) : Option Instr :=
  match decodeBytes (bytesOfWord (tableWord nbits w)) with
  | .instr i _ => some i
  | .unknown _ => none
  | .truncated => none

end Sys2Proof
end

