-- ==== Sys2Proof/Config.lean ====
section
/-! DEFINITION. The construction-time parameters (00_scope.md R7), the inputs the host supplies to a step or a tick
(R14), and the free values: what the spec leaves to the host or to the implementation. -/

namespace Sys2Proof

/-- `SHIFT_SOURCE` (R7): the register SHR and SHL read. -/
inductive ShiftSource where
  | srcVy
  | srcVx
  deriving DecidableEq, Repr

/-- `JUMP_OFFSET_REG` (R7): the register JP V0, addr adds. -/
inductive JumpOffsetReg where
  | offV0
  | offVx
  deriving DecidableEq, Repr

/-- `SPRITE_WRAP` (R7; 40_display.md R104): what happens to a sprite pixel past an edge. -/
inductive SpriteWrap where
  | wrapXClipY
  | clipXY
  | wrapXY
  deriving DecidableEq, Repr

/-- The construction-time parameters of R7, but for `INIT_MEM`, which is an argument of construction
(`State.construct`): a function cannot be a field of State. -/
structure Config where
  /-- `MEM_SIZE`: bytes of memory -/
  memSize : Nat
  /-- `LOAD_BASE`: where the program image goes -/
  loadBase : Nat
  /-- `FB_W`: columns of the framebuffer -/
  fbW : Nat
  /-- `FB_H`: rows of the framebuffer -/
  fbH : Nat
  /-- `SHIFT_SOURCE` -/
  shiftSource : ShiftSource
  /-- `JUMP_OFFSET_REG` -/
  jumpOffsetReg : JumpOffsetReg
  /-- `SPRITE_WRAP` -/
  spriteWrap : SpriteWrap
  /-- `ARITH_FLAG_LAST` -/
  arithFlagLast : Bool
  /-- `SHIFT_FLAG_LAST` -/
  shiftFlagLast : Bool
  /-- `LOADSTORE_INCREMENTS_I` -/
  loadStoreIncrementsI : Bool
  /-- `STACK_CAPACITY`: `none` is `UNBOUNDED` -/
  stackCapacity : Option Nat
  /-- `CLOCK_HZ`: units of the wall clock per second -/
  clockHz : Nat
  /-- `TIMER_HZ` -/
  timerHz : Nat
  deriving DecidableEq, Repr

/-- The named configuration `TOBINIO_V7` (R7); `CLOCK_HZ` has no default and is the argument. -/
def Config.tobinioV7 (clockHz : Nat) : Config where
  memSize := 4096
  loadBase := 0x200
  fbW := 64
  fbH := 32
  shiftSource := .srcVy
  jumpOffsetReg := .offV0
  spriteWrap := .wrapXClipY
  arithFlagLast := true
  shiftFlagLast := false
  loadStoreIncrementsI := false
  stackCapacity := none
  clockHz := clockHz
  timerHz := 60

/-- The inputs of one interpreter step (R14; 60_exceptions.md R252 to R257), fixed at its start. -/
structure StepInput where
  /-- `held`: whether key `k` is held, at index `k` (R252) -/
  held : Vector Bool 16
  /-- `just`: the keys newly pressed since the last poll; every code is in 0..15 (R252, R253) -/
  just : List Key
  /-- the host's draw that settles which element of `just` an LD Vx, K takes (44_timer_input.md R214) -/
  pick : Nat
  /-- `rnd`: the random byte (R257) -/
  rnd : Byte
  deriving DecidableEq, Repr, Inhabited

/-- No key held or newly pressed, random byte zero. -/
def StepInput.idle : StepInput where
  held := Vector.replicate 16 false
  just := []
  pick := 0
  rnd := 0

/-- What the host asks of the block between steps (60_exceptions.md R261): a step with its inputs, or a tick with the
elapsed time in units of `1/CLOCK_HZ` second (R241). -/
inductive HostAction where
  | step (input : StepInput)
  | tick (elapsed : Nat)
  deriving DecidableEq, Repr

/-- FREE VALUE (log 3): the inputs the host supplies to the `n`-th step it was not told in `pending` how to make. The
model assumes nothing of them (R14, R257). -/
opaque Config.freeInput : Nat → StepInput

/-- FREE VALUE (log 2): the elapsed times of the timer ticks the host makes before that step, in order; any number of
them, any values (60_exceptions.md R259). -/
opaque Config.freeTicks : Nat → List Nat

/-- FREE VALUE (log 4): `CLOCK_HZ - 1` of the machine after reset; R7 gives `CLOCK_HZ` no default and only asks that it
be at least 1. -/
opaque Config.freeClockHzPred : Nat

end Sys2Proof
end

