-- ==== Sys2Proof/Machine/State.lean ====
section
/-! DEFINITION. The state of the machine (10_state.md), the reasons a step can stop, and the state after reset
(70_reset_and_hazards.md R270 to R279). -/

namespace Sys2Proof.Machine

/-- The kinds of fatal error with their information, in the order of 60_exceptions.md R231. -/
inductive ErrorKind where
  /-- `UnknownInstruction(ins)`: decode of a word no row of the opcode map matches (R232) -/
  | unknownInstruction (ins : Word)
  /-- `OutOfBounds(a)`: an access to address `a ≥ MEM_SIZE` (R233) -/
  | outOfBounds (a : Nat)
  /-- `StackUnderflow`: RET with an empty stack (R234) -/
  | stackUnderflow
  /-- `StackOverflow`: CALL with a bounded full stack (R235) -/
  | stackOverflow
  /-- `IndexOverflow`: ADD I, Vx beyond 0xFFFF (R236) -/
  | indexOverflow
  /-- `KeyOutOfRange(v)`: SKP or SKNP of a register value above 15 (R237) -/
  | keyOutOfRange (v : Byte)
  deriving DecidableEq, Repr

/-- The error record `e` of `HALTED(e)`: the kind with its information, and the address `A` (R231). -/
structure ErrorRecord where
  kind : ErrorKind
  addr : Word
  deriving DecidableEq, Repr

/-- `MODE` (10_state.md R33). -/
inductive Mode where
  | running
  | waiting (x : Reg)
  | halted (e : ErrorRecord)
  deriving DecidableEq, Repr

/-- Memory `M` (10_state.md R34): the bytes that differ from what an unlisted address reads as, by rising address. -/
abbrev Memory := List Host.Cell

/-- The framebuffer `FB` (10_state.md R32): its rows, top to bottom, each its pixels, left to right; `true` = set. -/
abbrev Framebuffer := List (List Bool)

/-- The machine. Fields `v` to `mem` are the architectural state (10_state.md); `cfg` holds the construction-time
parameters, which no step changes (R38; log 1); `pending`, `input` and `hostDraws` are the MODEL's own account of the host
(log 2, 3). -/
structure State where
  /-- `V[0]` to `V[15]` (R20); `V[15]` is `VF` (R21) -/
  v : Vector Byte 16
  /-- the index register `I` (R28) -/
  i : Word
  /-- the program counter `PC` (R25) -/
  pc : Word
  /-- the call stack `S`, most recently pushed first (R29) -/
  stack : List Word
  /-- the delay timer `DT` (R30) -/
  dt : Byte
  /-- the sound timer `ST` (R30) -/
  st : Byte
  /-- the timer remainder `ACC`, in units of `1/(TIMER_HZ * CLOCK_HZ)` second (R31) -/
  acc : Nat
  /-- the framebuffer `FB` (R32) -/
  fb : Framebuffer
  /-- `MODE` (R33) -/
  mode : Mode
  /-- memory `M` (R34) -/
  mem : Memory
  /-- the construction-time parameters (00_scope.md R7) -/
  cfg : Config
  /-- MODEL: what the host will ask for next, oldest first (60_exceptions.md R259, R261) -/
  pending : List HostAction
  /-- MODEL: the inputs of the interpreter step in progress (00_scope.md R14) -/
  input : StepInput
  /-- MODEL: how many free draws of the host's behaviour have been taken -/
  hostDraws : Nat
  deriving DecidableEq, Repr

/-- Why the machine stops. -/
inductive Fault where
  /-- Raised by `step` when the host asks for an interpreter step in mode `HALTED(e)`: there is no such step
  (30_encoding.md R82, 60_exceptions.md R238). Safe: the machine stops where the hardware has no step. -/
  | halted (e : ErrorRecord)
  deriving DecidableEq, Repr

/-- Why the model gives no meaning. -/
inductive Refusal where
  /-- Raised by an arm of `exec` for an instruction not modelled yet. Safe. No arm raises it. -/
  | notModelled (mnemonic : String)
  deriving DecidableEq, Repr

/-- The outcome of a step or of an instruction. -/
abbrev Result := Host.Outcome State Fault Refusal

/-- The state after construction with the parameters `TOBINIO_V7`, the empty image and `INIT_MEM` = 0x00
(70_reset_and_hazards.md R270 to R280; log 4, 5, 6, 9, 10). A program is placed by `State.construct` or, one word, by
`State.withFetchWord` (log 15). -/
def State.reset : State where
  v := Vector.replicate 16 0x00
  i := 0x0000
  pc := 0x0200
  stack := []
  dt := 0x00
  st := 0x00
  acc := 0
  fb := List.replicate 32 (List.replicate 64 false)
  mode := .running
  mem := []
  cfg := Config.tobinioV7 (Config.freeClockHzPred + 1)
  pending := []
  input := StepInput.idle
  hostDraws := 0

end Sys2Proof.Machine
end

