-- ==== Sys2Proof/Machine/Ops.lean ====
section
/-! DEFINITION. The named operations over registers, memory, stack and framebuffer, and the one way a fatal error is taken.
Every meaning is written over these. -/

namespace Sys2Proof.Machine

/-! ## Registers (10_state.md R20 to R31) -/

/-- `V[r]` -/
def State.reg (s : State) (r : Reg) : Byte := s.v.get r

/-- `V[r] <- b` -/
def State.writeReg (s : State) (r : Reg) (b : Byte) : State := { s with v := s.v.set r.val b r.isLt }

/-- the whole register file, for LD Vx, [I] -/
def State.setV (s : State) (v : Vector Byte 16) : State := { s with v := v }

/-- `I <- w` -/
def State.setI (s : State) (w : Word) : State := { s with i := w }

/-- `PC <- w` -/
def State.setPc (s : State) (w : Word) : State := { s with pc := w }

/-- `S <- l` -/
def State.setStack (s : State) (l : List Word) : State := { s with stack := l }

/-- `DT <- b` -/
def State.setDt (s : State) (b : Byte) : State := { s with dt := b }

/-- `ST <- b` -/
def State.setSt (s : State) (b : Byte) : State := { s with st := b }

/-- `ACC <- n` -/
def State.setAcc (s : State) (n : Nat) : State := { s with acc := n }

/-- `FB <- f` -/
def State.setFb (s : State) (f : Framebuffer) : State := { s with fb := f }

/-- `MODE <- m` -/
def State.setMode (s : State) (m : Mode) : State := { s with mode := m }

/-- `M <- m` -/
def State.setMem (s : State) (m : Memory) : State := { s with mem := m }

/-- MODEL: the host's requests still to come -/
def State.setPending (s : State) (l : List HostAction) : State := { s with pending := l }

/-- MODEL: latch the inputs of an interpreter step at its start (60_exceptions.md R252) -/
def State.setInput (s : State) (inp : StepInput) : State := { s with input := inp }

/-- MODEL: count free draws -/
def State.setHostDraws (s : State) (n : Nat) : State := { s with hostDraws := n }

/-- The address `A` of the instruction being executed. During execution `PC` holds `(A + 2) mod 2^16` (10_state.md R25,
30_encoding.md R80), so `A` is `PC - 2` (log 14). -/
def State.instrAddr (s : State) : Word := s.pc - 2

/-- `PC <- (PC + 2) mod 2^16`: the advance of a fetch (R80), and a taken skip on top of it (R26). -/
def State.advance (s : State) : State := s.setPc (s.pc + 2)

/-! ## Taking a fatal error (00_scope.md R13; 60_exceptions.md R230, R231, R245) -/

/-- `raise k` in a step whose instruction is at address `a`: nothing is committed, `PC` stays `a`, and
`MODE <- HALTED((k, a))`. `s` is the state as the instruction found it. There is no return from an error (R245). -/
def raise (k : ErrorKind) (a : Word) (s : State) : Result := .next ((s.setPc a).setMode (.halted ⟨k, a⟩))

/-! ## Memory (20_memory.md R50 to R56) -/

/-- What an address that is not listed reads as: 0x00 (log 5). -/
def Memory.blank : Byte := 0x00

/-- The canonical form: addresses strictly rising, and no entry equal to what an unlisted address reads as. -/
abbrev Memory.wf (m : Memory) : Prop := m.Pairwise (fun c d => c.1 < d.1) ∧ ∀ c ∈ m, c.2 ≠ Memory.blank

/-- `M[a]` -/
def Memory.read : Memory → Nat → Byte
  | [], _ => Memory.blank
  | (a', b) :: rest, a => if a = a' then b else Memory.read rest a

/-- List `(a, b)` at its place. -/
def Memory.insert : Memory → Nat → Byte → Memory
  | [], a, b => [(a, b)]
  | (a', b') :: rest, a, b =>
    if a < a' then (a, b) :: (a', b') :: rest
    else if a = a' then (a, b) :: rest
    else (a', b') :: Memory.insert rest a b

/-- Unlist `a`. -/
def Memory.erase (m : Memory) (a : Nat) : Memory := m.filter (fun c => c.1 != a)

/-- `M[a] <- b`, keeping the canonical form. -/
def Memory.write (m : Memory) (a : Nat) (b : Byte) : Memory :=
  if b = Memory.blank then Memory.erase m a else Memory.insert m a b

/-- the bytes at `a .. a+n-1` -/
def Memory.readMany (m : Memory) (a : Nat) : Nat → List Byte
  | 0 => []
  | n + 1 => Memory.read m a :: Memory.readMany m (a + 1) n

/-- `bytes[k]` into `a+k`, in order -/
def Memory.writeMany (m : Memory) (a : Nat) : List Byte → Memory
  | [] => m
  | b :: bs => Memory.writeMany (Memory.write m a b) (a + 1) bs

/-- The least address `≥ size` among `a .. a+n-1`, if any (R52, R54). Addresses are unbounded naturals (R56). -/
def firstOut (size a : Nat) : Nat → Option Nat
  | 0 => none
  | n + 1 => if size ≤ a then some a else firstOut size (a + 1) n

/-- One byte of the machine's memory, as every statement reads it. -/
def State.byteAt (s : State) (a : Nat) : Byte := Memory.read s.mem a

/-- `MemRead(a, n)` (R52): the bytes, or the least out-of-range address. -/
def State.memRead (s : State) (a n : Nat) : Except Nat (List Byte) :=
  match firstOut s.cfg.memSize a n with
  | some out => .error out
  | none => .ok (Memory.readMany s.mem a n)

/-- `MemWrite(a, n, bytes)` with `n` the length of `bytes` (R54): the state with all bytes written, or the least
out-of-range address and nothing written. -/
def State.memWrite (s : State) (a : Nat) (bytes : List Byte) : Except Nat State :=
  match firstOut s.cfg.memSize a bytes.length with
  | some out => .error out
  | none => .ok (s.setMem (Memory.writeMany s.mem a bytes))

/-- `MemRead16(a)` (R53): big-endian, the address of the high byte checked first. -/
def State.memRead16 (s : State) (a : Nat) : Except Nat Word :=
  if s.cfg.memSize ≤ a then .error a
  else if s.cfg.memSize ≤ a + 1 then .error (a + 1)
  else .ok (wordOfBytes (s.byteAt a) (s.byteAt (a + 1)))

/-! ## Call stack (10_state.md R29) -/

/-- `S <- push(S, a)`; `none` when the stack is bounded and full (41_control.md R122). -/
def State.pushReturn (s : State) (a : Word) : Option State :=
  if s.cfg.stackCapacity = some s.stack.length then none else some (s.setStack (a :: s.stack))

/-- `pop(S)`: the head, and the state with the tail; `none` when the stack is empty (41_control.md R120). -/
def State.popReturn (s : State) : Option (Word × State) :=
  match s.stack with
  | [] => none
  | a :: rest => some (a, s.setStack rest)

/-! ## Framebuffer (40_display.md R100, R101) -/

/-- `FB[y][x]`; unset outside the grid. -/
def Framebuffer.pixel (f : Framebuffer) (x y : Nat) : Bool := (f.getD y []).getD x false

/-- A grid of `h` rows of `w` unset pixels. -/
def Framebuffer.clear (w h : Nat) : Framebuffer := List.replicate h (List.replicate w false)

/-- `flip_pixel(x, y)` (R100) on a grid of `w` columns and `h` rows: the new grid, and `collided`. Out of bounds it changes
nothing and reports no collision. -/
def flipPixel (w h : Nat) (f : Framebuffer) (x y : Nat) : Framebuffer × Bool :=
  if x < w ∧ y < h then (f.modify y (fun row => row.modify x Bool.not), Framebuffer.pixel f x y)
  else (f, false)

/-- Flip the listed pixels `(x, y)` in order; the flag is set when any flip collided (R103). -/
def flipAll (w h : Nat) : Framebuffer → List (Nat × Nat) → Framebuffer × Bool
  | f, [] => (f, false)
  | f, p :: ps =>
    let here := flipPixel w h f p.1 p.2
    let later := flipAll w h here.1 ps
    (later.1, here.2 || later.2)

end Sys2Proof.Machine
end

