-- ==== Sys2Proof/Machine/Operands.lean ====
section
/-! DEFINITION. Operand forms that depend on a parameter or on the inputs: shift source, jump offset, key codes, the chosen
key, BCD digits, sprite pixels and their placement. -/

namespace Sys2Proof.Machine

/-- The source value of SHR and SHL: `V[Y]` under `SRC_VY`, `V[X]` under `SRC_VX` (42_alu.md R161). -/
def State.shiftOperand (s : State) (x y : Reg) : Byte :=
  match s.cfg.shiftSource with
  | .srcVy => s.reg y
  | .srcVx => s.reg x

/-- The offset of JP V0, addr: `V[0]` under `OFF_V0`, `V[NNN[11:8]]` under `OFF_VX` (41_control.md R127). -/
def State.jumpOffset (s : State) (nnn : BitVec 12) : Byte :=
  match s.cfg.jumpOffsetReg with
  | .offV0 => s.reg 0
  | .offVx => s.reg (nnn.extractLsb' 8 4).toFin

/-- `key_of(v)` (44_timer_input.md R210): the key `v` when `v ≤ 15`, else none. -/
def keyOf (v : Byte) : Option Key := if h : v.toNat < 16 then some ⟨v.toNat, h⟩ else none

/-- `held(k)` -/
def isHeld (inp : StepInput) (k : Key) : Bool := inp.held.get k

/-- `choose(just)` (44_timer_input.md R214): an element of `just` settled by the host's draw; none when `just` is empty
(log 12). -/
def chooseKey (inp : StepInput) : Option Key := inp.just[inp.pick % inp.just.length]?

/-- `zext_8` of a key code (R215) -/
def keyByte (k : Key) : Byte := BitVec.ofNat 8 k.val

/-- The BCD digits of a byte: hundreds, tens, units (43_index_memory.md R192). -/
def bcdDigits (d : Byte) : List Byte :=
  [BitVec.ofNat 8 (d.toNat / 100), BitVec.ofNat 8 (d.toNat / 10 % 10), BitVec.ofNat 8 (d.toNat % 10)]

/-- `V[0], V[1], .., V[x]` (R194) -/
def State.regsUpTo (s : State) (x : Reg) : List Byte := s.v.toList.take (x.val + 1)

/-- `for k: V[k] <- b[k]`, from register `k` on (R195) -/
def loadRegs (v : Vector Byte 16) (k : Nat) : List Byte → Vector Byte 16
  | [] => v
  | b :: bs => loadRegs (v.setIfInBounds k b) (k + 1) bs

/-- `if LOADSTORE_INCREMENTS_I then I <- (I + X + 1) mod 2^16` (R194, R195) -/
def State.bumpI (s : State) (x : Reg) : State :=
  if s.cfg.loadStoreIncrementsI then s.setI (BitVec.ofNat 16 (s.i.toNat + x.val + 1)) else s

/-- `place(cx, cy)` by `SPRITE_WRAP` (40_display.md R104). -/
def place (c : Config) (cx cy : Nat) : Nat × Nat :=
  match c.spriteWrap with
  | .wrapXClipY => (cx % c.fbW, cy)
  | .clipXY => (cx, cy)
  | .wrapXY => (cx % c.fbW, cy % c.fbH)

/-- The columns of a sprite byte whose bit is set, most-significant bit first: column `c` is bit `7 - c` (R103). -/
def setColumns (b : Byte) : List Nat := (List.range 8).filter (fun c => b.getLsbD (7 - c))

/-- The pixels DRW flips, in its loop order, for the sprite bytes `rows` at start point `(x0, y0)` (R103). -/
def spritePixels (c : Config) (x0 y0 : Nat) : List Byte → List (Nat × Nat)
  | [] => []
  | b :: rest => (setColumns b).map (fun col => place c (x0 + col) y0) ++ spritePixels c x0 (y0 + 1) rest

end Sys2Proof.Machine
end

