-- ==== Sys2Proof/Machine/Flags.lean ====
section
/-! DEFINITION. Every flag the spec gives, all in `VF` (10_state.md R24), and the one way a result and a flag are written. -/

namespace Sys2Proof.Machine

/-- A flag as the byte written to `VF`: 0x01 or 0x00. -/
def flagByte (b : Bool) : Byte := if b then 0x01 else 0x00

/-- ADD: the unwrapped sum exceeds 255 (42_alu.md R158). -/
def carryFlag (a b : Byte) : Bool := decide (255 < a.toNat + b.toNat)

/-- SUB, SUBN: no borrow, the minuend is at least the subtrahend (R159, R160). -/
def noBorrowFlag (a b : Byte) : Bool := decide (b.toNat ≤ a.toNat)

/-- SHR: the bit shifted out, bit 0 (R161). -/
def shrFlag (src : Byte) : Bool := src.getLsbD 0

/-- SHL: the bit shifted out, bit 7 (R162). -/
def shlFlag (src : Byte) : Bool := src.getLsbD 7

/-- `write2(X, res, flag, flag_last)` (R151): the order matters only for `X = 15`. -/
def State.write2 (s : State) (x : Reg) (res : Byte) (flag : Bool) (flagLast : Bool) : State :=
  if flagLast then (s.writeReg x res).writeReg Reg.vF (flagByte flag)
  else (s.writeReg Reg.vF (flagByte flag)).writeReg x res

end Sys2Proof.Machine
end

