-- ==== Sys2Proof/Machine/Alu.lean ====
section
/-! DEFINITION. The register and arithmetic family (42_alu.md). Operands are read before any register is written (R150);
`+` and `-` on bytes are the exact result modulo 256. `PC` stays `A + 2`. -/

namespace Sys2Proof.Machine

/-- LD Vx, byte (R152) -/
def execLdByte (x : Reg) (nn : Byte) (s : State) : Result := .next (s.writeReg x nn)

/-- ADD Vx, byte (R153): no flag. -/
def execAddByte (x : Reg) (nn : Byte) (s : State) : Result := .next (s.writeReg x (s.reg x + nn))

/-- LD Vx, Vy (R154) -/
def execLdReg (x y : Reg) (s : State) : Result := .next (s.writeReg x (s.reg y))

/-- OR Vx, Vy (R155) -/
def execOrReg (x y : Reg) (s : State) : Result := .next (s.writeReg x (s.reg x ||| s.reg y))

/-- AND Vx, Vy (R156) -/
def execAndReg (x y : Reg) (s : State) : Result := .next (s.writeReg x (s.reg x &&& s.reg y))

/-- XOR Vx, Vy (R157) -/
def execXorReg (x y : Reg) (s : State) : Result := .next (s.writeReg x (s.reg x ^^^ s.reg y))

/-- ADD Vx, Vy (R158) -/
def execAddReg (x y : Reg) (s : State) : Result :=
  .next (s.write2 x (s.reg x + s.reg y) (carryFlag (s.reg x) (s.reg y)) s.cfg.arithFlagLast)

/-- SUB Vx, Vy (R159) -/
def execSub (x y : Reg) (s : State) : Result :=
  .next (s.write2 x (s.reg x - s.reg y) (noBorrowFlag (s.reg x) (s.reg y)) s.cfg.arithFlagLast)

/-- SUBN Vx, Vy (R160) -/
def execSubn (x y : Reg) (s : State) : Result :=
  .next (s.write2 x (s.reg y - s.reg x) (noBorrowFlag (s.reg y) (s.reg x)) s.cfg.arithFlagLast)

/-- SHR Vx, Vy (R161) -/
def execShr (x y : Reg) (s : State) : Result :=
  .next (s.write2 x (s.shiftOperand x y >>> 1) (shrFlag (s.shiftOperand x y)) s.cfg.shiftFlagLast)

/-- SHL Vx, Vy (R162) -/
def execShl (x y : Reg) (s : State) : Result :=
  .next (s.write2 x (s.shiftOperand x y <<< 1) (shlFlag (s.shiftOperand x y)) s.cfg.shiftFlagLast)

/-- RND Vx, byte (R163): the random byte of the step, masked by the immediate (90_conflicts.md C1). -/
def execRnd (x : Reg) (nn : Byte) (s : State) : Result := .next (s.writeReg x (s.input.rnd &&& nn))

end Sys2Proof.Machine
end

