-- ==== Sys2Proof/Machine/Control.lean ====
section
/-! DEFINITION. The control-transfer family (41_control.md). Each meaning starts with `PC = A + 2`. -/

namespace Sys2Proof.Machine

/-- RET (R120) -/
def execRet (s : State) : Result :=
  match s.popReturn with
  | none => raise .stackUnderflow s.instrAddr s
  | some (a, s') => .next (s'.setPc a)

/-- JP addr (R121) -/
def execJp (nnn : BitVec 12) (s : State) : Result := .next (s.setPc (zext16 nnn))

/-- CALL addr (R122): pushes the current `PC`, which is `A + 2`. -/
def execCall (nnn : BitVec 12) (s : State) : Result :=
  match s.pushReturn s.pc with
  | none => raise .stackOverflow s.instrAddr s
  | some s' => .next (s'.setPc (zext16 nnn))

/-- Skip the next word when the condition holds: `PC <- A + 4` (10_state.md R26). -/
def State.skipIf (s : State) (b : Bool) : State := if b then s.advance else s

/-- SE Vx, byte (R123) -/
def execSeByte (x : Reg) (nn : Byte) (s : State) : Result := .next (s.skipIf (s.reg x == nn))

/-- SNE Vx, byte (R124) -/
def execSneByte (x : Reg) (nn : Byte) (s : State) : Result := .next (s.skipIf (s.reg x != nn))

/-- SE Vx, Vy (R125) -/
def execSeReg (x y : Reg) (s : State) : Result := .next (s.skipIf (s.reg x == s.reg y))

/-- SNE Vx, Vy (R126) -/
def execSneReg (x y : Reg) (s : State) : Result := .next (s.skipIf (s.reg x != s.reg y))

/-- JP V0, addr (R127): a plain sum, at most 0x10FE, not reduced to 12 bits. -/
def execJpV0 (nnn : BitVec 12) (s : State) : Result := .next (s.setPc (zext16 nnn + zext16 (s.jumpOffset nnn)))

end Sys2Proof.Machine
end

