-- ==== Sys2Proof/Machine/Display.lean ====
section
/-! DEFINITION. The display family (40_display.md): CLS, DRW. Each meaning starts after the fetch, with `PC = A + 2`. -/

namespace Sys2Proof.Machine

/-- CLS (R102): every pixel unset. -/
def execCls (s : State) : Result := .next (s.setFb (Framebuffer.clear s.cfg.fbW s.cfg.fbH))

/-- The pixels a DRW at `s` flips when its sprite bytes are `rows`: the start point is `V[X] mod FB_W`, `V[Y] mod FB_H`
(R103). -/
def drwPixels (x y : Reg) (rows : List Byte) (s : State) : List (Nat × Nat) :=
  spritePixels s.cfg ((s.reg x).toNat % s.cfg.fbW) ((s.reg y).toNat % s.cfg.fbH) rows

/-- DRW Vx, Vy, n (R103): all sprite bytes are read before any pixel changes; `VF` is the collision flag, written last. -/
def execDrw (x y : Reg) (n : BitVec 4) (s : State) : Result :=
  match s.memRead s.i.toNat n.toNat with
  | .error a => raise (.outOfBounds a) s.instrAddr s
  | .ok rows =>
    let drawn := flipAll s.cfg.fbW s.cfg.fbH s.fb (drwPixels x y rows s)
    .next ((s.setFb drawn.1).writeReg Reg.vF (flagByte drawn.2))

end Sys2Proof.Machine
end

