-- ==== Sys2Proof/Machine/IndexMemory.lean ====
section
/-! DEFINITION. The index register and memory family (43_index_memory.md). `PC` stays `A + 2`. -/

namespace Sys2Proof.Machine

/-- LD I, addr (R190) -/
def execLdI (nnn : BitVec 12) (s : State) : Result := .next (s.setI (zext16 nnn))

/-- ADD I, Vx (R191): fatal when the sum does not fit in 16 bits; no flag. -/
def execAddI (x : Reg) (s : State) : Result :=
  if 0xFFFF < s.i.toNat + (s.reg x).toNat then raise .indexOverflow s.instrAddr s
  else .next (s.setI (BitVec.ofNat 16 (s.i.toNat + (s.reg x).toNat)))

/-- LD B, Vx (R192) -/
def execLdBVx (x : Reg) (s : State) : Result :=
  match s.memWrite s.i.toNat (bcdDigits (s.reg x)) with
  | .error a => raise (.outOfBounds a) s.instrAddr s
  | .ok s' => .next s'

/-- LD [I], Vx (R194) -/
def execLdMemVx (x : Reg) (s : State) : Result :=
  match s.memWrite s.i.toNat (s.regsUpTo x) with
  | .error a => raise (.outOfBounds a) s.instrAddr s
  | .ok s' => .next (s'.bumpI x)

/-- LD Vx, [I] (R195): every byte is read before any register is written. -/
def execLdVxMem (x : Reg) (s : State) : Result :=
  match s.memRead s.i.toNat (x.val + 1) with
  | .error a => raise (.outOfBounds a) s.instrAddr s
  | .ok bytes => .next ((s.setV (loadRegs s.v 0 bytes)).bumpI x)

end Sys2Proof.Machine
end

