-- ==== Sys2Proof/Machine/KeyTimer.lean ====
section
/-! DEFINITION. The key and timer instruction family (44_timer_input.md), and the key poll of mode `WAITING(x)`. -/

namespace Sys2Proof.Machine

/-- SKP Vx (R211): reads the held state. -/
def execSkp (x : Reg) (s : State) : Result :=
  match keyOf (s.reg x) with
  | none => raise (.keyOutOfRange (s.reg x)) s.instrAddr s
  | some k => .next (s.skipIf (isHeld s.input k))

/-- SKNP Vx (R212) -/
def execSknp (x : Reg) (s : State) : Result :=
  match keyOf (s.reg x) with
  | none => raise (.keyOutOfRange (s.reg x)) s.instrAddr s
  | some k => .next (s.skipIf (!isHeld s.input k))

/-- LD Vx, DT (R213) -/
def execLdVxDt (x : Reg) (s : State) : Result := .next (s.writeReg x s.dt)

/-- LD Vx, K (R215): with no key just pressed `PC` goes back to `A` and the machine waits; otherwise the key is written. -/
def execLdVxK (x : Reg) (s : State) : Result :=
  .next (match chooseKey s.input with
    | none => (s.setPc s.instrAddr).setMode (.waiting x)
    | some k => s.writeReg x (keyByte k))

/-- A step in mode `WAITING(x)` (R216): fetches nothing, raises nothing. -/
def pollKey (x : Reg) (s : State) : State :=
  match chooseKey s.input with
  | none => s
  | some k => ((s.writeReg x (keyByte k)).advance).setMode .running

/-- LD DT, Vx (R218): `ACC` is not changed. -/
def execLdDtVx (x : Reg) (s : State) : Result := .next (s.setDt (s.reg x))

/-- LD ST, Vx (R219): `ACC` is not changed. -/
def execLdStVx (x : Reg) (s : State) : Result := .next (s.setSt (s.reg x))

end Sys2Proof.Machine
end

