-- ==== Sys2Proof/Machine/Timer.lean ====
section
/-! DEFINITION. The 60 Hz timer pair (60_exceptions.md R241 to R243). -/

namespace Sys2Proof.Machine

/-- A counter goes down by one, with a floor at zero (10_state.md R30). -/
def countDown (c : Byte) : Byte := if c = 0 then 0 else c - 1

/-- `tick(elapsed)` (R241): at most one decrement of each counter, the remainder carried in `ACC`. Runs in every mode
(R243). -/
def tick (elapsed : Nat) (s : State) : State :=
  if s.cfg.clockHz ≤ s.acc + s.cfg.timerHz * elapsed then
    ((s.setAcc (s.acc + s.cfg.timerHz * elapsed - s.cfg.clockHz)).setDt (countDown s.dt)).setSt (countDown s.st)
  else s.setAcc (s.acc + s.cfg.timerHz * elapsed)

/-- Ticks with the given elapsed times, in order. -/
def tickAll : List Nat → State → State
  | [], s => s
  | e :: es, s => tickAll es (tick e s)

end Sys2Proof.Machine
end

