-- ==== Sys2Proof/WellFormed.lean ====
section
/-! DEFINITION. What construction checks (00_scope.md R7, R9; 70_reset_and_hazards.md R272). An instruction needs no check:
its operands' types hold exactly the values an encoding can carry (10_state.md R22). -/

namespace Sys2Proof

/-- The parameters are legal: the column "legal values" of R7, and R9. In order: `MEM_SIZE > LOAD_BASE + 1`;
`LOAD_BASE` fits the 16-bit program counter that is loaded with it (R270; DEDUCED, log 11); `FB_W ≥ 1`; `FB_H ≥ 1`;
`STACK_CAPACITY ≥ 1` if bounded; `CLOCK_HZ ≥ 1`. -/
def Config.wf (c : Config) : Bool :=
  decide (c.loadBase + 1 < c.memSize) && decide (c.loadBase < 0x10000) && decide (1 ≤ c.fbW) && decide (1 ≤ c.fbH)
    && decide (c.stackCapacity ≠ some 0) && decide (1 ≤ c.clockHz)

/-- The image fits in memory: `LOAD_BASE + len(image) ≤ MEM_SIZE` (R9, R272). -/
def Config.imageFits (c : Config) (image : List Byte) : Bool := decide (c.loadBase + image.length ≤ c.memSize)

end Sys2Proof
end

