-- ==== Sys2Proof/Machine/HostPort.lean ====
section
/-! DEFINITION. The host's side of the block (60_exceptions.md R252 to R261; 70_reset_and_hazards.md R280): what it asks for
next, the render snapshot, and construction. -/

namespace Sys2Proof.Machine

/-- What the host asks for next, and the state in which the block meets the request (log 2): the head of `pending`; when
nothing is queued, an interpreter step with free inputs, before which the host made any number of timer ticks (R259). -/
def State.nextRequest (s : State) : HostAction × State :=
  match s.pending with
  | act :: rest => (act, s.setPending rest)
  | [] =>
    (.step (Config.freeInput s.hostDraws), (tickAll (Config.freeTicks s.hostDraws) s).setHostDraws (s.hostDraws + 1))

/-- The render snapshot with the mode and error record (R258, D41). -/
structure Snapshot where
  /-- `[V[0], .., V[15]]` -/
  registers : List Byte
  /-- `FB` in row-major order -/
  pixels : List Bool
  /-- the mode, with the error record in it -/
  mode : Mode
  deriving DecidableEq, Repr

/-- Reading the snapshot (R258): a function of the state, which it leaves as it is. -/
def State.snapshot (s : State) : Snapshot where
  registers := s.v.toList
  pixels := s.fb.flatten
  mode := s.mode

/-- `M` with `INIT_MEM(a)` at every address `a < n` (R279). -/
def initialMemory (initMem : Nat → Byte) : Nat → Memory
  | 0 => []
  | n + 1 => Memory.write (initialMemory initMem n) n (initMem n)

/-- Construction (70_reset_and_hazards.md R280): refused when the parameters are not legal or the image does not fit (R272,
00_scope.md R9); otherwise the state of R270 to R279. -/
def State.construct (c : Config) (initMem : Nat → Byte) (image : List Byte) : Option State :=
  if c.wf && c.imageFits image then
    some { State.reset with
      pc := BitVec.ofNat 16 c.loadBase
      fb := Framebuffer.clear c.fbW c.fbH
      mem := Memory.writeMany (initialMemory initMem c.memSize) c.loadBase image
      cfg := c }
  else none

end Sys2Proof.Machine
end

