-- ==== Sys2Proof/Machine/Fetch.lean ====
section
/-! DEFINITION. The step cycle (30_encoding.md R80 to R82): fetch, advance, decode, dispatch; the poll while waiting; no step
when halted. -/

namespace Sys2Proof.Machine

/-- One step in mode `RUNNING` (R80). A fetch or decode error is raised in the state before the advance. -/
def stepRunning (s : State) : Result :=
  match s.memRead16 s.pc.toNat with
  | .error a => raise (.outOfBounds a) s.pc s
  | .ok ins =>
    match decode ins with
    | .unknown w => raise (.unknownInstruction w) s.pc s
    | .instr i => exec i s.advance

/-- One interpreter step by mode (R80, R81, R82); the inputs are already latched. -/
def interpStep (s : State) : Result :=
  match s.mode with
  | .running => stepRunning s
  | .waiting x => .next (pollKey x s)
  | .halted e => .fault (.halted e)

/-- Serve one request of the host (60_exceptions.md R259, R261). -/
def serve (act : HostAction) (s : State) : Result :=
  match act with
  | .tick elapsed => .next (tick elapsed s)
  | .step inp => interpStep (s.setInput inp)

/-- The state in which the very next step fetches and runs the word `ins`: it lies at `PC`, high byte first, the mode is
`RUNNING`, and the host's next request is a step, with free inputs (log 15). -/
def State.placeWord (s : State) (ins : Word) : State :=
  (((s.setMem (Memory.writeMany s.mem s.pc.toNat (bytesOfWord ins))).setMode .running).setPending
    (.step (Config.freeInput s.hostDraws) :: s.pending)).setHostDraws (s.hostDraws + 1)

end Sys2Proof.Machine
end

