-- ==== Sys2Proof/Machine/Step.lean ====
section
/-! DEFINITION. One step of the machine: the host's next request is served. -/

namespace Sys2Proof.Machine

/-- The step: one interpreter step or one timer tick, whichever the host asks for next (00_scope.md R3). -/
def step (s : State) : Host.Outcome State Fault Refusal := serve s.nextRequest.1 s.nextRequest.2

/-- `s` with the opcode-table word `w` placed so that the very next step fetches and runs it (log 15). -/
def State.withFetchWord (s : State) (nbits w : Nat) : State := s.placeWord (tableWord nbits w)

end Sys2Proof.Machine
end

