-- ==== Sys2Proof/Safety.lean ====
section
/-! DEFINITION. The terms claims are stated in: what an instruction may change (frames), the invariant of the machine,
reachability, and what counts as a safe run. -/

namespace Sys2Proof.Machine

/-! ## Frames -/

/-- What may change between two states: the listed registers, the listed memory addresses, and the marked parts. -/
structure Touch where
  regs : List Reg := []
  mem : List Nat := []
  i : Bool := false
  pc : Bool := false
  stack : Bool := false
  dt : Bool := false
  st : Bool := false
  fb : Bool := false
  mode : Bool := false

/-- Everything but `w` is the same in `t` as in `s`. `ACC`, the parameters and the model's account of the host never differ:
no instruction writes them (10_state.md R31, R38). -/
structure Unchanged (w : Touch) (s t : State) : Prop where
  regs : ∀ r, r ∉ w.regs → t.reg r = s.reg r
  mem : ∀ a, a ∉ w.mem → t.byteAt a = s.byteAt a
  i : w.i = false → t.i = s.i
  pc : w.pc = false → t.pc = s.pc
  stack : w.stack = false → t.stack = s.stack
  dt : w.dt = false → t.dt = s.dt
  st : w.st = false → t.st = s.st
  fb : w.fb = false → t.fb = s.fb
  mode : w.mode = false → t.mode = s.mode
  acc : t.acc = s.acc
  cfg : t.cfg = s.cfg
  pending : t.pending = s.pending
  input : t.input = s.input
  hostDraws : t.hostDraws = s.hostDraws

/-- The state a fatal error of kind `k` at address `a` leaves: `s` with `PC = a` and `MODE = HALTED((k, a))`, nothing else
changed (00_scope.md R13). -/
def HaltedAt (s t : State) (k : ErrorKind) (a : Word) : Prop :=
  t.mode = .halted ⟨k, a⟩ ∧ t.pc = a ∧ Unchanged { pc := true, mode := true } s t

/-! ## Invariants -/

/-- The invariant every step keeps. -/
structure State.Inv (s : State) : Prop where
  /-- the parameters are legal (R7, R9) -/
  cfg_wf : s.cfg.wf = true
  /-- memory is in its canonical form -/
  mem_wf : Memory.wf s.mem
  /-- memory lists no address outside `0 .. MEM_SIZE-1` (20_memory.md R51) -/
  mem_in : ∀ c ∈ s.mem, c.1 < s.cfg.memSize
  /-- the grid has `FB_H` rows of `FB_W` pixels (10_state.md R32) -/
  fb_rows : s.fb.length = s.cfg.fbH
  fb_cols : ∀ row ∈ s.fb, row.length = s.cfg.fbW
  /-- a bounded stack never holds more than its capacity (R29) -/
  stack_cap : ∀ n, s.cfg.stackCapacity = some n → s.stack.length ≤ n
  /-- while waiting, `PC` holds the address of the LD Vx, K that waits (R33) -/
  waiting_pc : ∀ x, s.mode = .waiting x → ∃ ins, s.memRead16 s.pc.toNat = .ok ins ∧ decode ins = .instr (.ldVxK x)
  /-- after a fatal error `PC` holds the address in the error record (R13, R231) -/
  halted_pc : ∀ e, s.mode = .halted e → e.addr = s.pc

/-- The bound of 10_state.md R27: with `MEM_SIZE ≤ 0xFFFC`, no stack entry is above `MEM_SIZE`, and `PC` is at most
`max (MEM_SIZE + 2) (0xFFF + 0xFF)`. -/
structure State.PcBound (s : State) : Prop where
  size : s.cfg.memSize ≤ 0xFFFC
  stack : ∀ a ∈ s.stack, a.toNat ≤ s.cfg.memSize
  pc : s.pc.toNat ≤ max (s.cfg.memSize + 2) (0xFFF + 0xFF)

/-! ## Runs -/

/-- `t` is reached from `s` by steps that each answer a next state. -/
inductive Reach (s : State) : State → Prop where
  | here : Reach s s
  | next {t u : State} (before : Reach s t) (h : step t = .next u) : Reach s u

/-- No fatal error has happened: `HALTED` is never a successful end of a run (60_exceptions.md R238). -/
def State.live (s : State) : Prop := ∀ e, s.mode ≠ .halted e

/-- A safe run of `k` steps: every step answers a next state, and the machine ends live. -/
def SafeRun (k : Nat) (s : State) : Prop := ∃ t, Host.Core.run Sys2Proof.core k s = .next t ∧ t.live

/-- The host asks for an interpreter step with inputs `inp` next, and the block meets the request in the state `t`, inputs
latched. -/
def State.Asked (s : State) (inp : StepInput) (t : State) : Prop :=
  ∃ u, s.nextRequest = (.step inp, u) ∧ t = u.setInput inp

/-! ## The instruction list, and what each instruction may write (10_state.md R23, R24, R26, R28 to R34) -/

/-- The registers of the column "writes" of R23. -/
def writtenRegs : Instr → List Reg
  | .ldByte x _ | .addByte x _ | .ldReg x _ | .orReg x _ | .andReg x _ | .xorReg x _ | .rnd x _ | .ldVxDt x | .ldVxK x => [x]
  | .addReg x _ | .sub x _ | .subn x _ | .shr x _ | .shl x _ => [x, Reg.vF]
  | .drw _ _ _ => [Reg.vF]
  | .ldVxMem x => (List.finRange 16).filter (fun r => decide (r ≤ x))
  | .cls | .ret | .jp _ | .call _ | .seByte _ _ | .sneByte _ _ | .seReg _ _ | .sneReg _ _ | .ldI _ | .jpV0 _ | .skp _ | .sknp _
  | .ldDtVx _ | .ldStVx _ | .addI _ | .ldBVx _ | .ldMemVx _ => []

/-- The opcode-map row of each instruction (30_encoding.md R85): its mask and match. -/
def opcodeRow : Instr → OpcodeRow
  | .cls => ⟨0xFFFF, 0x00E0⟩
  | .ret => ⟨0xFFFF, 0x00EE⟩
  | .jp _ => ⟨0xF000, 0x1000⟩
  | .call _ => ⟨0xF000, 0x2000⟩
  | .seByte _ _ => ⟨0xF000, 0x3000⟩
  | .sneByte _ _ => ⟨0xF000, 0x4000⟩
  | .seReg _ _ => ⟨0xF00F, 0x5000⟩
  | .sneReg _ _ => ⟨0xF00F, 0x9000⟩
  | .ldByte _ _ => ⟨0xF000, 0x6000⟩
  | .addByte _ _ => ⟨0xF000, 0x7000⟩
  | .ldReg _ _ => ⟨0xF00F, 0x8000⟩
  | .orReg _ _ => ⟨0xF00F, 0x8001⟩
  | .andReg _ _ => ⟨0xF00F, 0x8002⟩
  | .xorReg _ _ => ⟨0xF00F, 0x8003⟩
  | .addReg _ _ => ⟨0xF00F, 0x8004⟩
  | .sub _ _ => ⟨0xF00F, 0x8005⟩
  | .subn _ _ => ⟨0xF00F, 0x8007⟩
  | .shr _ _ => ⟨0xF00F, 0x8006⟩
  | .shl _ _ => ⟨0xF00F, 0x800E⟩
  | .ldI _ => ⟨0xF000, 0xA000⟩
  | .jpV0 _ => ⟨0xF000, 0xB000⟩
  | .drw _ _ _ => ⟨0xF000, 0xD000⟩
  | .rnd _ _ => ⟨0xF000, 0xC000⟩
  | .skp _ => ⟨0xF0FF, 0xE09E⟩
  | .sknp _ => ⟨0xF0FF, 0xE0A1⟩
  | .ldVxDt _ => ⟨0xF0FF, 0xF007⟩
  | .ldVxK _ => ⟨0xF0FF, 0xF00A⟩
  | .ldDtVx _ => ⟨0xF0FF, 0xF015⟩
  | .ldStVx _ => ⟨0xF0FF, 0xF018⟩
  | .addI _ => ⟨0xF0FF, 0xF01E⟩
  | .ldBVx _ => ⟨0xF0FF, 0xF033⟩
  | .ldMemVx _ => ⟨0xF0FF, 0xF055⟩
  | .ldVxMem _ => ⟨0xF0FF, 0xF065⟩

/-- The instruction reads an input port: the keys (60_exceptions.md R256) or the random byte (R257). -/
def readsInput : Instr → Bool
  | .rnd _ _ | .skp _ | .sknp _ | .ldVxK _ => true
  | .cls | .ret | .jp _ | .call _ | .seByte _ _ | .sneByte _ _ | .seReg _ _ | .sneReg _ _ | .ldByte _ _ | .addByte _ _
  | .ldReg _ _ | .orReg _ _ | .andReg _ _ | .xorReg _ _ | .addReg _ _ | .sub _ _ | .subn _ _ | .shr _ _ | .shl _ _ | .ldI _
  | .jpV0 _ | .drw _ _ _ | .ldVxDt _ | .ldDtVx _ | .ldStVx _ | .addI _ | .ldBVx _ | .ldMemVx _ | .ldVxMem _ => false

end Sys2Proof.Machine
end

