-- ==== Sys2Proof/Certificates/Slice0/Obligations.lean ====
section
/-! DEFINITION. The statements for the provers. An instruction's statement is about `exec`, which runs after the fetch with
`PC = A + 2` (00_scope.md R15, 10_state.md R25): `s.pc` is `A + 2` and `s.instrAddr` is `A`. "Decodes" clauses write the
instruction's word out from the pattern column of 30_encoding.md R85; "(pattern: log 8)" says that R85 marks the pattern `GK`, which
is the spec's own choice D8 and not a rule of its source. -/

open Sys2Proof Sys2Proof.Machine

/-! ## Encoding (30_encoding.md) -/

/-- Words written out from the spec, of every family, decode to what they stand for (patterns: log 8); the six words R84 names are
`UNKNOWN` (strict decoding is the spec's decision D9, log 17). -/
def Obligations.SampleWordsDecode : Prop :=
  decode 0x00E0 = .instr .cls ∧ decode 0xD123 = .instr (.drw 1 2 3) ∧ decode 0x00EE = .instr .ret ∧
  decode 0x1ABC = .instr (.jp 0xABC) ∧ decode 0x9AB0 = .instr (.sneReg 0xA 0xB) ∧ decode 0xB310 = .instr (.jpV0 0x310) ∧
  decode 0x6A42 = .instr (.ldByte 0xA 0x42) ∧ decode 0x8127 = .instr (.subn 1 2) ∧ decode 0xA123 = .instr (.ldI 0x123) ∧
  decode 0xF255 = .instr (.ldMemVx 2) ∧ decode 0xE19E = .instr (.skp 1) ∧ decode 0xF30A = .instr (.ldVxK 3) ∧
  decode 0x5121 = .unknown 0x5121 ∧ decode 0x9AB3 = .unknown 0x9AB3 ∧ decode 0x8128 = .unknown 0x8128 ∧
  decode 0xE19F = .unknown 0xE19F ∧ decode 0xF129 = .unknown 0xF129 ∧ decode 0x0123 = .unknown 0x0123

/-- Decode and encode agree: a word decodes to an instruction exactly when it is that instruction's encoding, for every
instruction and every value of its operands (patterns: log 8). -/
def Obligations.DecodeAndEncodeAgree : Prop :=
  ∀ (w : Word) (i : Instr), decode w = .instr i ↔ encode i = w

/-- R83: decode is total, returns the instruction of the unique row of the opcode map that matches, or `UNKNOWN` with the raw
word if no row matches; no two rows match the same word. The rows are those of R85 (patterns: log 8; strict: D9, log 17). -/
def Obligations.DecodeFollowsTheOpcodeMap : Prop :=
  (∀ (w : Word) (i : Instr), decode w = .instr i →
    opcodeRow i ∈ opcodeMap ∧ (opcodeRow i).covers w = true ∧ ∀ r ∈ opcodeMap, r.covers w = true → r = opcodeRow i) ∧
  (∀ w v : Word, decode w = .unknown v → v = w ∧ ∀ r ∈ opcodeMap, r.covers w = false) ∧
  (∀ w : Word, opcodeMap.Pairwise (fun r q => ¬(r.covers w = true ∧ q.covers w = true)))

/-- The unknown words are exactly those of the table of R86, group by group (patterns: log 8; strict: D9, log 17). -/
def Obligations.UnknownWordsByGroup : Prop :=
  ∀ w : Word, decode w = .unknown w ↔
    (fieldOp w = 0x0 ∧ w ≠ 0x00E0 ∧ w ≠ 0x00EE) ∨
    (fieldOp w = 0x5 ∧ fieldN w ≠ 0x0) ∨
    (fieldOp w = 0x8 ∧ fieldN w ∈ [0x8#4, 0x9#4, 0xA#4, 0xB#4, 0xC#4, 0xD#4, 0xF#4]) ∨
    (fieldOp w = 0x9 ∧ fieldN w ≠ 0x0) ∨
    (fieldOp w = 0xE ∧ fieldNN w ∉ [0x9E#8, 0xA1#8]) ∨
    (fieldOp w = 0xF ∧ fieldNN w ∉ [0x07#8, 0x0A#8, 0x15#8, 0x18#8, 0x1E#8, 0x33#8, 0x55#8, 0x65#8])

/-! ## The step cycle (30_encoding.md R80 to R82; 60_exceptions.md) -/

/-- A step in `RUNNING` whose two bytes at `PC`, high byte first, decode to `i` is `exec i` with `PC` advanced by 2 and the step's
inputs latched. The inputs are those the host queued; with nothing queued they are free, and the host's
free timer ticks come first (log 2). -/
def Obligations.StepRunsTheDecodedInstruction : Prop :=
  ∀ (s : State) (i : Instr), s.mode = .running → s.pc.toNat + 1 < s.cfg.memSize →
    decode (wordOfBytes (s.byteAt s.pc.toNat) (s.byteAt (s.pc.toNat + 1))) = .instr i →
    (∀ inp rest, s.pending = .step inp :: rest →
      step s = exec i (((s.setPending rest).setInput inp).setPc (s.pc + 2))) ∧
    (s.pending = [] →
      step s = exec i ((((tickAll (Config.freeTicks s.hostDraws) s).setHostDraws (s.hostDraws + 1)).setInput
        (Config.freeInput s.hostDraws)).setPc (s.pc + 2)))

/-- Placing an instruction's word with `withFetchWord` makes the very next step run it, on a state with the same registers,
stack, timers, framebuffer and parameters, `PC` advanced, and memory changed at the two bytes of the word only (log 15). -/
def Obligations.PlacedWordRunsNext : Prop :=
  ∀ (s : State) (i : Instr), s.pc.toNat + 1 < s.cfg.memSize →
    ∃ u, step (s.withFetchWord 16 (encode i).toNat) = exec i u ∧
      u.v = s.v ∧ u.i = s.i ∧ u.pc = s.pc + 2 ∧ u.stack = s.stack ∧ u.dt = s.dt ∧ u.st = s.st ∧ u.acc = s.acc ∧
      u.fb = s.fb ∧ u.cfg = s.cfg ∧ u.mode = .running ∧
      ∀ a, a ≠ s.pc.toNat → a ≠ s.pc.toNat + 1 → u.byteAt a = s.byteAt a

/-- A word no row matches ends the run at its address, with the raw word in the record and nothing else changed (R232; that the address
reported is the word's is the spec's decision D33, that nothing else changes its decision D22, log 18). -/
def Obligations.UnknownWordHalts : Prop :=
  ∀ (s t : State) (inp : StepInput) (ins w : Word), s.Asked inp t → s.mode = .running →
    s.memRead16 s.pc.toNat = .ok ins → decode ins = .unknown w →
    ∃ u, step s = .next u ∧ HaltedAt t u (.unknownInstruction ins) s.pc

/-- A fetch beyond memory raises `OutOfBounds` with the least bad address (20_memory.md R53; the address reported and that nothing
else changes are the spec's decisions D33 and D22, log 18). -/
def Obligations.FetchBeyondMemoryHalts : Prop :=
  ∀ (s t : State) (inp : StepInput), s.Asked inp t → s.mode = .running →
    (s.cfg.memSize ≤ s.pc.toNat → ∃ u, step s = .next u ∧ HaltedAt t u (.outOfBounds s.pc.toNat) s.pc) ∧
    (s.pc.toNat + 1 = s.cfg.memSize → ∃ u, step s = .next u ∧ HaltedAt t u (.outOfBounds (s.pc.toNat + 1)) s.pc)

/-- A step in `WAITING(x)` (R216): nothing changes without a newly pressed key; with one, its code goes to `V[x]`, `PC`
advances exactly once, and the mode is `RUNNING`. -/
def Obligations.WaitingPollsTheKeys : Prop :=
  ∀ (s t : State) (inp : StepInput) (x : Reg), s.Asked inp t → s.mode = .waiting x →
    (inp.just = [] → step s = .next t) ∧
    (inp.just ≠ [] → ∃ k ∈ inp.just, ∃ u, step s = .next u ∧ u.reg x = BitVec.ofNat 8 k.val ∧ u.pc = s.pc + 2 ∧
      u.mode = .running ∧ Unchanged { regs := [x], pc := true, mode := true } t u)

/-- The `WAITING(x)` sub-state is observably the same as re-fetching and re-executing the LD Vx, K (R217): whatever the inputs,
a step from it answers what the same step from `RUNNING` answers. -/
def Obligations.WaitingEqualsRetrying : Prop :=
  ∀ (s : State) (x : Reg), s.Inv → s.mode = .waiting x → (∀ e rest, s.pending ≠ .tick e :: rest) →
    step s = step (s.setMode .running)

/-- In `HALTED(e)` there is no interpreter step; a timer tick is still possible and leaves registers, `PC`, stack, framebuffer,
memory and the error record alone (R82, R238; the ticks are the spec's decision D37). -/
def Obligations.HaltedHasNoStep : Prop :=
  ∀ (s : State) (e : ErrorRecord), s.mode = .halted e →
    ((∀ n rest, s.pending ≠ .tick n :: rest) → step s = .fault (.halted e)) ∧
    (∀ n rest, s.pending = .tick n :: rest → ∃ t, step s = .next t ∧ t.v = s.v ∧ t.i = s.i ∧ t.pc = s.pc ∧
      t.stack = s.stack ∧ t.fb = s.fb ∧ t.mem = s.mem ∧ t.mode = s.mode)

/-- Nothing leaves `HALTED`, however long the run: registers, `I`, `PC`, stack, framebuffer, memory and the error record never
change again (R238). -/
def Obligations.HaltedIsForEver : Prop :=
  ∀ (s t : State) (e : ErrorRecord), s.mode = .halted e → Reach s t →
    t.mode = .halted e ∧ t.v = s.v ∧ t.i = s.i ∧ t.pc = s.pc ∧ t.stack = s.stack ∧ t.fb = s.fb ∧ t.mem = s.mem

/-- Every fatal error is precise: a step from `RUNNING` that ends in `HALTED`, whatever the instruction, records the address it
fetched from and commits nothing else (00_scope.md R13, 60_exceptions.md R230; the spec's decision D22). -/
def Obligations.FatalErrorsCommitNothing : Prop :=
  ∀ (s t u : State) (inp : StepInput) (e : ErrorRecord), s.Asked inp t → s.mode = .running → step s = .next u →
    u.mode = .halted e → e.addr = s.pc ∧ HaltedAt t u e.kind s.pc

/-- No instruction raises an error but those of the table of R231, each only for its own cause. `StackOverflow`, `IndexOverflow` and
`KeyOutOfRange` are the spec's decisions D23, D16 and D18, and that an address does not wrap its decision D17 (log 18). -/
def Obligations.ErrorsHaveTheirCause : Prop :=
  ∀ (i : Instr) (s t : State) (e : ErrorRecord), s.mode = .running → exec i s = .next t → t.mode = .halted e →
    (i = .ret ∧ e.kind = .stackUnderflow ∧ s.stack = []) ∨
    ((∃ nnn, i = .call nnn) ∧ e.kind = .stackOverflow ∧ s.cfg.stackCapacity = some s.stack.length) ∨
    (∃ x, i = .addI x ∧ e.kind = .indexOverflow ∧ 0xFFFF < s.i.toNat + (s.reg x).toNat) ∨
    (∃ x, (i = .skp x ∨ i = .sknp x) ∧ e.kind = .keyOutOfRange (s.reg x) ∧ 15 < (s.reg x).toNat) ∨
    (∃ n a, ((∃ x y m, i = .drw x y m ∧ n = m.toNat) ∨ ((∃ x, i = .ldBVx x) ∧ n = 3) ∨
        (∃ x, (i = .ldMemVx x ∨ i = .ldVxMem x) ∧ n = x.val + 1)) ∧
      e.kind = .outOfBounds a ∧ s.i.toNat ≤ a ∧ a < s.i.toNat + n ∧ s.cfg.memSize ≤ a ∧
      ∀ b, s.i.toNat ≤ b → b < a → b < s.cfg.memSize)

/-! ## Invariants -/

/-- The state after reset meets the invariant, and the bound on `PC` (the values are the spec's decisions, log 6). -/
def Obligations.ResetMeetsTheInvariant : Prop := State.reset.Inv ∧ State.reset.PcBound

/-- Every step, tick or instruction, keeps the invariant: canonical memory inside `MEM_SIZE`, a grid of `FB_H` rows of `FB_W`
pixels, a stack within its capacity, legal parameters, `PC` at the waiting LD Vx, K, the error address at `PC`. -/
def Obligations.StepKeepsTheInvariant : Prop :=
  ∀ s t : State, s.Inv → step s = .next t → t.Inv

/-- With `MEM_SIZE ≤ 0xFFFC` no `PC` arithmetic of a step wraps: an instruction word is fetched only at an `A` with `A + 4 < 2^16`,
whether the step runs it or polls for it, and every step keeps `PC` within `max (MEM_SIZE + 2) 0x10FE` (10_state.md R27; the spec's
decisions D29, D30, log 21). -/
def Obligations.StepKeepsPcInRange : Prop :=
  ∀ s : State, s.Inv → s.PcBound →
    (∀ ins, s.memRead16 s.pc.toNat = .ok ins → s.pc.toNat + 4 < 0x10000) ∧
    (∀ x, s.mode = .waiting x → s.pc.toNat + 4 < 0x10000) ∧
    (∀ t, step s = .next t → t.PcBound)

/-! ## Who writes and who reads what, over all instructions -/

/-- Each part of the state is written only by the instructions the spec names: the stack by CALL and RET (10_state.md R29), `DT`
by LD DT, Vx and `ST` by LD ST, Vx (R30), `ACC` by none (R31), the framebuffer by CLS and DRW (R32), `I` by LD I, addr, ADD I, Vx
and, when `LOADSTORE_INCREMENTS_I`, LD [I], Vx and LD Vx, [I] (R28), memory by LD B, Vx and LD [I], Vx (20_memory.md R59), and the
parameters, which the model holds in the state by its own choice (log 1), by none. -/
def Obligations.OnlyNamedInstructionsWrite : Prop :=
  ∀ (i : Instr) (s t : State), exec i s = .next t →
    (t.stack ≠ s.stack → i = .ret ∨ ∃ nnn, i = .call nnn) ∧
    (t.dt ≠ s.dt → ∃ x, i = .ldDtVx x) ∧
    (t.st ≠ s.st → ∃ x, i = .ldStVx x) ∧
    t.acc = s.acc ∧ t.cfg = s.cfg ∧
    (t.fb ≠ s.fb → i = .cls ∨ ∃ x y n, i = .drw x y n) ∧
    (t.i ≠ s.i → (∃ nnn, i = .ldI nnn) ∨ (∃ x, i = .addI x) ∨
      (s.cfg.loadStoreIncrementsI = true ∧ ∃ x, i = .ldMemVx x ∨ i = .ldVxMem x)) ∧
    (∀ a, t.byteAt a ≠ s.byteAt a → ∃ x, i = .ldBVx x ∨ i = .ldMemVx x)

/-- No general register changes but those of the column "writes" of R23; `VF` in particular changes as a flag only by ADD, SUB,
SUBN, SHR, SHL and DRW (R24). -/
def Obligations.OnlyNamedRegistersChange : Prop :=
  ∀ (i : Instr) (s t : State), exec i s = .next t → ∀ r, r ∉ writtenRegs i → t.reg r = s.reg r

/-- Only SKP, SKNP, LD Vx, K and RND depend on the step's inputs; every other instruction does the same whatever they are
(60_exceptions.md R256). -/
def Obligations.OnlyFourInstructionsReadInputs : Prop :=
  ∀ (i : Instr) (s t : State) (inp : StepInput), readsInput i = false → exec i s = .next t →
    exec i (s.setInput inp) = .next (t.setInput inp)

/-- `ACC` is invisible to instructions (10_state.md R31), and so is `ST`, which only LD ST, Vx touches (R30). -/
def Obligations.InstructionsCannotSeeAccOrSt : Prop :=
  ∀ (i : Instr) (s t : State), exec i s = .next t →
    (∀ n, exec i (s.setAcc n) = .next (t.setAcc n)) ∧
    (∀ b, (∀ x, i ≠ .ldStVx x) → exec i (s.setSt b) = .next (t.setSt b))

/-! ## The timer pair (60_exceptions.md R241 to R243) -/

/-- One tick, in any mode: the remainder accumulates; when it reaches `CLOCK_HZ` it is reduced by it and each counter goes down
by one, never below zero; everything else stays (the integer scaling is the spec's decision D24, the one accumulator D25, log 19). -/
def Obligations.TickFollowsItsRule : Prop :=
  ∀ (s : State) (e : Nat) (rest : List HostAction), s.pending = .tick e :: rest →
    ∃ t, step s = .next t ∧
      (s.cfg.clockHz ≤ s.acc + s.cfg.timerHz * e → t.acc = s.acc + s.cfg.timerHz * e - s.cfg.clockHz ∧
        t.dt.toNat = s.dt.toNat - 1 ∧ t.st.toNat = s.st.toNat - 1) ∧
      (s.acc + s.cfg.timerHz * e < s.cfg.clockHz → t.acc = s.acc + s.cfg.timerHz * e ∧ t.dt = s.dt ∧ t.st = s.st) ∧
      t.v = s.v ∧ t.i = s.i ∧ t.pc = s.pc ∧ t.stack = s.stack ∧ t.fb = s.fb ∧ t.mem = s.mem ∧ t.mode = s.mode ∧
      t.cfg = s.cfg ∧ t.pending = rest

/-- After exactly N ticks spaced at least `1/TIMER_HZ` second apart, each timer has gone down by N, with a floor at zero; a timer
that held N reads 0 (R242; the integer units and the one accumulator are the spec's decisions D24 and D25, log 19). -/
def Obligations.SpacedTicksCountDown : Prop :=
  ∀ (s : State) (es : List Nat) (rest : List HostAction), s.pending = es.map .tick ++ rest →
    (∀ e ∈ es, s.cfg.clockHz ≤ s.cfg.timerHz * e) →
    ∃ t, Host.Core.run Sys2Proof.core es.length s = .next t ∧ t.pending = rest ∧
      t.dt.toNat = s.dt.toNat - es.length ∧ t.st.toNat = s.st.toNat - es.length

/-- No time is lost over any sequence of ticks: every decrement takes exactly `CLOCK_HZ` out of the accumulated time, and the rest
stays in `ACC` ("carrying forward any remainder", R241); so nothing is decremented before the threshold (R242). That
`ACC` is one accumulator in integer units, so that one count `k` serves both timers, is the spec's decisions D24 and D25 (log 19). -/
def Obligations.TicksLoseNoTime : Prop :=
  ∀ (s : State) (es : List Nat) (rest : List HostAction), s.pending = es.map .tick ++ rest →
    ∃ t k, Host.Core.run Sys2Proof.core es.length s = .next t ∧ k ≤ es.length ∧
      t.acc + k * s.cfg.clockHz = s.acc + s.cfg.timerHz * es.sum ∧
      t.dt.toNat = s.dt.toNat - k ∧ t.st.toNat = s.st.toNat - k

/-! ## Memory (20_memory.md) -/

/-- `MemRead(a, n)`: the bytes at `a .. a+n-1` in order, or the least out-of-range address (R52). -/
def Obligations.MemReadRule : Prop :=
  ∀ (s : State) (a n : Nat),
    ((∀ k < n, a + k < s.cfg.memSize) →
      s.memRead a n = .ok ((List.range n).map (fun k => s.byteAt (a + k)))) ∧
    (∀ k < n, s.cfg.memSize ≤ a + k → (∀ j < k, a + j < s.cfg.memSize) → s.memRead a n = .error (a + k))

/-- `MemWrite(a, n, bytes)`: byte `k` goes to `a + k` and no other byte changes, or the least out-of-range address is reported
and there is no new state at all (R54; the spec's decision D22). -/
def Obligations.MemWriteRule : Prop :=
  ∀ (s : State) (a : Nat) (bytes : List Byte),
    ((∀ k < bytes.length, a + k < s.cfg.memSize) →
      ∃ t, s.memWrite a bytes = .ok t ∧ (∀ k < bytes.length, t.byteAt (a + k) = bytes.getD k 0) ∧
        Unchanged { mem := (List.range bytes.length).map (a + ·) } s t) ∧
    (∀ k < bytes.length, s.cfg.memSize ≤ a + k → (∀ j < k, a + j < s.cfg.memSize) →
      s.memWrite a bytes = .error (a + k))

/-- Equal memories are equal data: two memories in canonical form that read alike at every address are the same list. -/
def Obligations.CanonicalMemoriesAreEqual : Prop :=
  ∀ m m' : Memory, Memory.wf m → Memory.wf m' → (∀ a, Memory.read m a = Memory.read m' a) → m = m'

/-! ## Display family (40_display.md) -/

/-- `flip_pixel(x, y)` on a grid of `h` rows of `w` pixels (R100). -/
def Obligations.FlipPixelRule : Prop :=
  ∀ (w h x y : Nat) (f : Framebuffer), f.length = h → (∀ row ∈ f, row.length = w) →
    (x < w ∧ y < h →
      (flipPixel w h f x y).2 = Framebuffer.pixel f x y ∧
      Framebuffer.pixel (flipPixel w h f x y).1 x y = !(Framebuffer.pixel f x y) ∧
      ∀ p q, (p ≠ x ∨ q ≠ y) → Framebuffer.pixel (flipPixel w h f x y).1 p q = Framebuffer.pixel f p q) ∧
    (¬(x < w ∧ y < h) → flipPixel w h f x y = (f, false))

/-- CLS decodes from `00E0`, completes, leaves every pixel unset whatever the prior state, and changes nothing else (R101, R102). -/
def Obligations.ClsClearsTheFramebuffer : Prop :=
  decode 0x00E0 = .instr .cls ∧
  ∀ s : State, ∃ t, exec .cls s = .next t ∧ Unchanged { fb := true } s t ∧
    t.fb.length = s.cfg.fbH ∧ (∀ row ∈ t.fb, row.length = s.cfg.fbW) ∧ ∀ x y, Framebuffer.pixel t.fb x y = false

/-- The pixels a DRW flips, as a list in its loop order, each exactly once for each set bit `7 - c` of each row `r`: the one at column
`x0 + c` and row `y0 + r`, each coordinate reduced or not as `SPRITE_WRAP` says (R103, R104; `CLIP_XY` and `WRAP_XY` are the spec's
decision D14, log 9). -/
def Obligations.SpritePixelsArePlaced : Prop :=
  ∀ (x y : Reg) (rows : List Byte) (s : State) (x0 y0 : Nat),
    x0 = (s.reg x).toNat % s.cfg.fbW → y0 = (s.reg y).toNat % s.cfg.fbH →
    drwPixels x y rows s =
      (List.range rows.length).flatMap (fun r =>
        ((List.range 8).filter (fun c => (rows.getD r 0).getLsbD (7 - c))).map (fun c =>
          (if s.cfg.spriteWrap = .clipXY then x0 + c else (x0 + c) % s.cfg.fbW,
            if s.cfg.spriteWrap = .wrapXY then (y0 + r) % s.cfg.fbH else y0 + r)))

/-- DRW completes when its sprite bytes lie in memory: each pixel on the grid is inverted once for every time the sprite names it,
`VF` is 1 exactly when some flip, in order, unset a set pixel, and nothing else changes (R103). -/
def Obligations.DrwXorsTheSprite : Prop :=
  ∀ (x y : Reg) (n : BitVec 4) (s : State), s.Inv → (∀ k < n.toNat, s.i.toNat + k < s.cfg.memSize) →
    ∃ t, exec (.drw x y n) s = .next t ∧ Unchanged { regs := [Reg.vF], fb := true } s t ∧
      t.fb.length = s.cfg.fbH ∧ (∀ row ∈ t.fb, row.length = s.cfg.fbW) ∧
      ∀ ps, ps = drwPixels x y ((List.range n.toNat).map (fun k => s.byteAt (s.i.toNat + k))) s →
        (∀ p q, p < s.cfg.fbW → q < s.cfg.fbH →
          Framebuffer.pixel t.fb p q = (Framebuffer.pixel s.fb p q ^^ decide (ps.count (p, q) % 2 = 1))) ∧
        ((∃ j p q, ps[j]? = some (p, q) ∧ p < s.cfg.fbW ∧ q < s.cfg.fbH ∧
            (Framebuffer.pixel s.fb p q ^^ decide ((ps.take j).count (p, q) % 2 = 1)) = true) → t.reg Reg.vF = 0x01) ∧
        ((∀ j p q, ps[j]? = some (p, q) → p < s.cfg.fbW → q < s.cfg.fbH →
            (Framebuffer.pixel s.fb p q ^^ decide ((ps.take j).count (p, q) % 2 = 1)) = false) → t.reg Reg.vF = 0x00)

/-- DRW whose sprite leaves memory raises `OutOfBounds` with the least bad address, before any pixel changes (R103; the
address reported and that nothing is committed are the spec's decisions D33, D22 and D39, log 18). -/
def Obligations.DrwBeyondMemoryHalts : Prop :=
  ∀ (x y : Reg) (n : BitVec 4) (s : State) (k : Nat), k < n.toNat → s.cfg.memSize ≤ s.i.toNat + k →
    (∀ j < k, s.i.toNat + j < s.cfg.memSize) →
    ∃ t, exec (.drw x y n) s = .next t ∧ HaltedAt s t (.outOfBounds (s.i.toNat + k)) s.instrAddr

/-- Drawing the same sprite twice at the same place restores the framebuffer; and when the first draw met no set pixel (it left
`VF` = 0) and the sprite has a set bit on screen, the second sets `VF` = 1 (R103, as log 13 reads its last sentence). The place
is the same unless `V[X]` or `V[Y]` is the `VF` that the first draw overwrote. -/
def Obligations.DrawingTwiceRestores : Prop :=
  ∀ (x y : Reg) (n : BitVec 4) (s : State), s.Inv → (∀ k < n.toNat, s.i.toNat + k < s.cfg.memSize) →
    ∃ t, exec (.drw x y n) s = .next t ∧
      (t.reg x = s.reg x → t.reg y = s.reg y →
        ∃ u, exec (.drw x y n) t = .next u ∧ u.fb = s.fb ∧
          (t.reg Reg.vF = 0x00 →
            (∃ p ∈ drwPixels x y ((List.range n.toNat).map (fun k => s.byteAt (s.i.toNat + k))) s,
              p.1 < s.cfg.fbW ∧ p.2 < s.cfg.fbH) → u.reg Reg.vF = 0x01))

/-! ## Control-transfer family (41_control.md) -/

/-- RET decodes from `00EE`; it pops the head of the stack into `PC` exactly as pushed; with an empty stack it raises
`StackUnderflow` (R120; pattern: log 8;
the error step commits nothing and reports `A`: D22, D33, log 18). -/
def Obligations.RetPopsOrUnderflows : Prop :=
  decode 0x00EE = .instr .ret ∧
  ∀ s : State,
    (∀ a rest, s.stack = a :: rest →
      ∃ t, exec .ret s = .next t ∧ t.pc = a ∧ t.stack = rest ∧ Unchanged { pc := true, stack := true } s t) ∧
    (s.stack = [] → ∃ t, exec .ret s = .next t ∧ HaltedAt s t .stackUnderflow s.instrAddr)

/-- JP addr decodes from `1NNN` and sets `PC` to the zero-extended address (R121; pattern: log 8). -/
def Obligations.JpSetsPc : Prop :=
  ∀ nnn : BitVec 12, decode (0x1#4 ++ nnn) = .instr (.jp nnn) ∧
    ∀ s : State, ∃ t, exec (.jp nnn) s = .next t ∧ t.pc.toNat = nnn.toNat ∧ Unchanged { pc := true } s t

/-- CALL addr decodes from `2NNN`; it pushes `A + 2` and jumps unless the stack is bounded and full, when it raises `StackOverflow`
(R122; the bounded stack is the spec's decision D23; pattern: log 8;
the error step commits nothing and reports `A`: D22, D33, log 18). -/
def Obligations.CallPushesOrOverflows : Prop :=
  ∀ nnn : BitVec 12, decode (0x2#4 ++ nnn) = .instr (.call nnn) ∧
    ∀ s : State,
      (s.cfg.stackCapacity ≠ some s.stack.length →
        ∃ t, exec (.call nnn) s = .next t ∧ t.stack = (s.instrAddr + 2) :: s.stack ∧ t.pc.toNat = nnn.toNat ∧
          Unchanged { pc := true, stack := true } s t) ∧
      (s.cfg.stackCapacity = some s.stack.length →
        ∃ t, exec (.call nnn) s = .next t ∧ HaltedAt s t .stackOverflow s.instrAddr)

/-- The four skips decode from `3XNN`, `4XNN`, `5XY0`, `9XY0`, compare as their rules say, leave `PC` at `A + 4` when they skip and at
`A + 2` when they do not, and change nothing else (R123 to R126; patterns: log 8). -/
def Obligations.SkipsCompareAndSkip : Prop :=
  ∀ (x y : Reg) (nn : Byte),
    (decode (0x3#4 ++ (x.bits ++ nn)) = .instr (.seByte x nn) ∧
      decode (0x4#4 ++ (x.bits ++ nn)) = .instr (.sneByte x nn) ∧
      decode (0x5#4 ++ (x.bits ++ (y.bits ++ 0x0#4))) = .instr (.seReg x y) ∧
      decode (0x9#4 ++ (x.bits ++ (y.bits ++ 0x0#4))) = .instr (.sneReg x y)) ∧
    ∀ s : State,
      (∃ t, exec (.seByte x nn) s = .next t ∧ Unchanged { pc := true } s t ∧
        t.pc = if s.reg x = nn then s.instrAddr + 4 else s.instrAddr + 2) ∧
      (∃ t, exec (.sneByte x nn) s = .next t ∧ Unchanged { pc := true } s t ∧
        t.pc = if s.reg x ≠ nn then s.instrAddr + 4 else s.instrAddr + 2) ∧
      (∃ t, exec (.seReg x y) s = .next t ∧ Unchanged { pc := true } s t ∧
        t.pc = if s.reg x = s.reg y then s.instrAddr + 4 else s.instrAddr + 2) ∧
      (∃ t, exec (.sneReg x y) s = .next t ∧ Unchanged { pc := true } s t ∧
        t.pc = if s.reg x ≠ s.reg y then s.instrAddr + 4 else s.instrAddr + 2)

/-- JP V0, addr decodes from `BNNN` and sets `PC` to the plain sum of the address and `V[0]`, or `V[X]` with `X` its top nibble under
`OFF_VX`; the sum is not reduced to 12 bits (R127; the spec's decisions D13, D38; pattern: log 8). -/
def Obligations.JpV0AddsTheOffset : Prop :=
  ∀ nnn : BitVec 12, decode (0xB#4 ++ nnn) = .instr (.jpV0 nnn) ∧
    ∀ s : State, ∃ t, exec (.jpV0 nnn) s = .next t ∧ Unchanged { pc := true } s t ∧
      (s.cfg.jumpOffsetReg = .offV0 → t.pc.toNat = nnn.toNat + (s.reg 0).toNat) ∧
      (s.cfg.jumpOffsetReg = .offVx → ∀ x : Reg, x.val = nnn.toNat / 256 → t.pc.toNat = nnn.toNat + (s.reg x).toNat)

/-! ## Register and arithmetic family (42_alu.md) -/

/-- ADD Vx, byte decodes from `7XNN`, adds modulo 256 into `V[X]`, and changes nothing else: no flag, `VF` being written only when
`X = 15` (R153). -/
def Obligations.AddByteWrapsWithoutFlag : Prop :=
  ∀ (x : Reg) (nn : Byte), decode (0x7#4 ++ (x.bits ++ nn)) = .instr (.addByte x nn) ∧
    ∀ s : State, ∃ t, exec (.addByte x nn) s = .next t ∧ (t.reg x).toNat = ((s.reg x).toNat + nn.toNat) % 256 ∧
      Unchanged { regs := [x] } s t

/-- LD Vx, byte; LD Vx, Vy; OR; AND; XOR decode from `6XNN`, `8XY0` to `8XY3`, write their result to `V[X]`, and change nothing else, `VF`
included unless `X = 15` (R152, R154 to R157; patterns: log 8). -/
def Obligations.PlainRegisterWrites : Prop :=
  ∀ (x y : Reg) (nn : Byte),
    (decode (0x6#4 ++ (x.bits ++ nn)) = .instr (.ldByte x nn) ∧
      decode (0x8#4 ++ (x.bits ++ (y.bits ++ 0x0#4))) = .instr (.ldReg x y) ∧
      decode (0x8#4 ++ (x.bits ++ (y.bits ++ 0x1#4))) = .instr (.orReg x y) ∧
      decode (0x8#4 ++ (x.bits ++ (y.bits ++ 0x2#4))) = .instr (.andReg x y) ∧
      decode (0x8#4 ++ (x.bits ++ (y.bits ++ 0x3#4))) = .instr (.xorReg x y)) ∧
    ∀ s : State,
      (∃ t, exec (.ldByte x nn) s = .next t ∧ t.reg x = nn ∧ Unchanged { regs := [x] } s t) ∧
      (∃ t, exec (.ldReg x y) s = .next t ∧ t.reg x = s.reg y ∧ Unchanged { regs := [x] } s t) ∧
      (∃ t, exec (.orReg x y) s = .next t ∧ t.reg x = s.reg x ||| s.reg y ∧ Unchanged { regs := [x] } s t) ∧
      (∃ t, exec (.andReg x y) s = .next t ∧ t.reg x = s.reg x &&& s.reg y ∧ Unchanged { regs := [x] } s t) ∧
      (∃ t, exec (.xorReg x y) s = .next t ∧ t.reg x = s.reg x ^^^ s.reg y ∧ Unchanged { regs := [x] } s t)

/-- ADD Vx, Vy (`8XY4`): the sum modulo 256 in `V[X]`, the carry in `VF`; for `X = 15` the one `ARITH_FLAG_LAST` names is left in `VF`
(R158; the order is the spec's decision D10). -/
def Obligations.AddWritesSumAndCarry : Prop :=
  ∀ x y : Reg, decode (0x8#4 ++ (x.bits ++ (y.bits ++ 0x4#4))) = .instr (.addReg x y) ∧
    ∀ s : State, ∃ t, exec (.addReg x y) s = .next t ∧ Unchanged { regs := [x, Reg.vF] } s t ∧
      ∀ res flag : Byte, res = BitVec.ofNat 8 ((s.reg x).toNat + (s.reg y).toNat) →
        flag = (if 255 < (s.reg x).toNat + (s.reg y).toNat then 0x01 else 0x00) →
        (x ≠ Reg.vF → t.reg x = res ∧ t.reg Reg.vF = flag) ∧
        (x = Reg.vF → t.reg Reg.vF = if s.cfg.arithFlagLast then flag else res)

/-- SUB Vx, Vy (`8XY5`) and SUBN Vx, Vy (`8XY7`): the difference modulo 256 in `V[X]`, the not-borrow in `VF`; for `X = 15` the one
`ARITH_FLAG_LAST` names is left (R159, R160; the order is the spec's decision D10; SUBN's pattern: log 8). -/
def Obligations.SubtractionsWriteDifferenceAndNotBorrow : Prop :=
  ∀ x y : Reg,
    (decode (0x8#4 ++ (x.bits ++ (y.bits ++ 0x5#4))) = .instr (.sub x y) ∧
      decode (0x8#4 ++ (x.bits ++ (y.bits ++ 0x7#4))) = .instr (.subn x y)) ∧
    ∀ s : State,
      (∃ t, exec (.sub x y) s = .next t ∧ Unchanged { regs := [x, Reg.vF] } s t ∧
        ∀ res flag : Byte, res = BitVec.ofInt 8 ((s.reg x).toNat - (s.reg y).toNat : Int) →
          flag = (if (s.reg y).toNat ≤ (s.reg x).toNat then 0x01 else 0x00) →
          (x ≠ Reg.vF → t.reg x = res ∧ t.reg Reg.vF = flag) ∧
          (x = Reg.vF → t.reg Reg.vF = if s.cfg.arithFlagLast then flag else res)) ∧
      (∃ t, exec (.subn x y) s = .next t ∧ Unchanged { regs := [x, Reg.vF] } s t ∧
        ∀ res flag : Byte, res = BitVec.ofInt 8 ((s.reg y).toNat - (s.reg x).toNat : Int) →
          flag = (if (s.reg x).toNat ≤ (s.reg y).toNat then 0x01 else 0x00) →
          (x ≠ Reg.vF → t.reg x = res ∧ t.reg Reg.vF = flag) ∧
          (x = Reg.vF → t.reg Reg.vF = if s.cfg.arithFlagLast then flag else res))

/-- SHR Vx, Vy (`8XY6`) and SHL Vx, Vy (`8XYE`): the source (`V[Y]`, or `V[X]` under `SRC_VX`) shifted by one bit in `V[X]`, the bit
shifted out in `VF`; for `X = 15` the one `SHIFT_FLAG_LAST` names is left (R161, R162; the spec's decisions D11, D12; patterns: log 8). -/
def Obligations.ShiftsMoveOneBit : Prop :=
  ∀ x y : Reg,
    (decode (0x8#4 ++ (x.bits ++ (y.bits ++ 0x6#4))) = .instr (.shr x y) ∧
      decode (0x8#4 ++ (x.bits ++ (y.bits ++ 0xE#4))) = .instr (.shl x y)) ∧
    ∀ (s : State) (src : Nat),
      src = (if s.cfg.shiftSource = .srcVy then s.reg y else s.reg x).toNat →
      (∃ t, exec (.shr x y) s = .next t ∧ Unchanged { regs := [x, Reg.vF] } s t ∧
        (x ≠ Reg.vF → (t.reg x).toNat = src / 2 ∧ (t.reg Reg.vF).toNat = src % 2) ∧
        (x = Reg.vF → (t.reg Reg.vF).toNat = if s.cfg.shiftFlagLast then src % 2 else src / 2)) ∧
      (∃ t, exec (.shl x y) s = .next t ∧ Unchanged { regs := [x, Reg.vF] } s t ∧
        (x ≠ Reg.vF → (t.reg x).toNat = 2 * src % 256 ∧ (t.reg Reg.vF).toNat = src / 128) ∧
        (x = Reg.vF → (t.reg Reg.vF).toNat = if s.cfg.shiftFlagLast then src / 128 else 2 * src % 256))

/-- RND Vx, byte (`CXNN`): the step's random byte, whatever it is, masked by the immediate (R163; the free byte is the spec's decision
D28; pattern: log 8). -/
def Obligations.RndMasksTheRandomByte : Prop :=
  ∀ (x : Reg) (nn : Byte), decode (0xC#4 ++ (x.bits ++ nn)) = .instr (.rnd x nn) ∧
    ∀ s : State, ∃ t, exec (.rnd x nn) s = .next t ∧ t.reg x = s.input.rnd &&& nn ∧ Unchanged { regs := [x] } s t

/-! ## Index register and memory family (43_index_memory.md) -/

/-- LD I, addr decodes from `ANNN` and replaces all of `I` by the zero-extended address (R190; pattern: log 8). -/
def Obligations.LdISetsTheIndex : Prop :=
  ∀ nnn : BitVec 12, decode (0xA#4 ++ nnn) = .instr (.ldI nnn) ∧
    ∀ s : State, ∃ t, exec (.ldI nnn) s = .next t ∧ t.i.toNat = nnn.toNat ∧ Unchanged { i := true } s t

/-- ADD I, Vx (`FX1E`) adds without any flag; a sum beyond 0xFFFF raises `IndexOverflow` (R191; the spec's decision D16;
pattern: log 8;
the error step commits nothing and reports `A`: D22, D33, log 18). -/
def Obligations.AddIAddsOrOverflows : Prop :=
  ∀ x : Reg, decode (0xF#4 ++ (x.bits ++ 0x1E#8)) = .instr (.addI x) ∧
    ∀ s : State,
      (s.i.toNat + (s.reg x).toNat ≤ 0xFFFF →
        ∃ t, exec (.addI x) s = .next t ∧ t.i.toNat = s.i.toNat + (s.reg x).toNat ∧ Unchanged { i := true } s t) ∧
      (0xFFFF < s.i.toNat + (s.reg x).toNat → ∃ t, exec (.addI x) s = .next t ∧ HaltedAt s t .indexOverflow s.instrAddr)

/-- LD B, Vx (`FX33`) stores the hundreds, tens and units digits of `V[X]` at `I`, `I+1`, `I+2` and changes nothing else; when one of
the three lies beyond memory it raises `OutOfBounds` with the least such address and writes nothing (R192; pattern: log 8;
the error step commits nothing and reports `A`: D22, D33, log 18). -/
def Obligations.LdBStoresTheDigits : Prop :=
  ∀ x : Reg, decode (0xF#4 ++ (x.bits ++ 0x33#8)) = .instr (.ldBVx x) ∧
    ∀ s : State,
      (s.i.toNat + 2 < s.cfg.memSize →
        ∃ t, exec (.ldBVx x) s = .next t ∧
          (t.byteAt s.i.toNat).toNat = (s.reg x).toNat / 100 ∧
          (t.byteAt (s.i.toNat + 1)).toNat = (s.reg x).toNat / 10 % 10 ∧
          (t.byteAt (s.i.toNat + 2)).toNat = (s.reg x).toNat % 10 ∧
          Unchanged { mem := [s.i.toNat, s.i.toNat + 1, s.i.toNat + 2] } s t) ∧
      (∀ k < 3, s.cfg.memSize ≤ s.i.toNat + k → (∀ j < k, s.i.toNat + j < s.cfg.memSize) →
        ∃ t, exec (.ldBVx x) s = .next t ∧ HaltedAt s t (.outOfBounds (s.i.toNat + k)) s.instrAddr)

/-- The three bytes LD B, Vx stores are decimal digits and make up the value: `100 h + 10 t + u = V[X]` (R193). -/
def Obligations.BcdDigitsMakeTheValue : Prop :=
  ∀ (x : Reg) (s t : State), exec (.ldBVx x) s = .next t → t.mode = s.mode → s.live →
    100 * (t.byteAt s.i.toNat).toNat + 10 * (t.byteAt (s.i.toNat + 1)).toNat + (t.byteAt (s.i.toNat + 2)).toNat
      = (s.reg x).toNat ∧
    (t.byteAt s.i.toNat).toNat ≤ 9 ∧ (t.byteAt (s.i.toNat + 1)).toNat ≤ 9 ∧ (t.byteAt (s.i.toNat + 2)).toNat ≤ 9

/-- LD [I], Vx (`FX55`) stores `V[0] .. V[X]` at `I .. I+X`; `I` moves on by `X + 1` modulo 2^16 only when `LOADSTORE_INCREMENTS_I`; an
address beyond memory raises `OutOfBounds` with the least one and writes nothing (R194; the spec's decision D15; pattern: log 8;
the error step commits nothing and reports `A`: D22, D33, log 18). -/
def Obligations.RegisterDumpStores : Prop :=
  ∀ x : Reg, decode (0xF#4 ++ (x.bits ++ 0x55#8)) = .instr (.ldMemVx x) ∧
    ∀ s : State,
      (s.i.toNat + x.val < s.cfg.memSize →
        ∃ t, exec (.ldMemVx x) s = .next t ∧ (∀ r : Reg, r ≤ x → t.byteAt (s.i.toNat + r.val) = s.reg r) ∧
          t.i.toNat = (if s.cfg.loadStoreIncrementsI then (s.i.toNat + x.val + 1) % 0x10000 else s.i.toNat) ∧
          Unchanged { mem := (List.range (x.val + 1)).map (s.i.toNat + ·), i := true } s t) ∧
      (∀ k ≤ x.val, s.cfg.memSize ≤ s.i.toNat + k → (∀ j < k, s.i.toNat + j < s.cfg.memSize) →
        ∃ t, exec (.ldMemVx x) s = .next t ∧ HaltedAt s t (.outOfBounds (s.i.toNat + k)) s.instrAddr)

/-- LD Vx, [I] (`FX65`) loads `V[0] .. V[X]` from `I .. I+X` and no other register; `I` as for LD [I], Vx; an address beyond memory
raises `OutOfBounds` with the least one and writes no register (R195; the spec's decision D15; pattern: log 8;
the error step commits nothing and reports `A`: D22, D33, log 18). -/
def Obligations.RegisterLoadLoads : Prop :=
  ∀ x : Reg, decode (0xF#4 ++ (x.bits ++ 0x65#8)) = .instr (.ldVxMem x) ∧
    ∀ s : State,
      (s.i.toNat + x.val < s.cfg.memSize →
        ∃ t, exec (.ldVxMem x) s = .next t ∧ (∀ r : Reg, r ≤ x → t.reg r = s.byteAt (s.i.toNat + r.val)) ∧
          t.i.toNat = (if s.cfg.loadStoreIncrementsI then (s.i.toNat + x.val + 1) % 0x10000 else s.i.toNat) ∧
          Unchanged { regs := (List.finRange 16).filter (fun r => decide (r ≤ x)), i := true } s t) ∧
      (∀ k ≤ x.val, s.cfg.memSize ≤ s.i.toNat + k → (∀ j < k, s.i.toNat + j < s.cfg.memSize) →
        ∃ t, exec (.ldVxMem x) s = .next t ∧ HaltedAt s t (.outOfBounds (s.i.toNat + k)) s.instrAddr)

/-- What LD [I], Vx stores, LD Vx, [I] loads back: from any registers `v`, a load at the same `I` after a store gives back
`V[0] .. V[X]` ("the inverse", R195). -/
def Obligations.LoadUndoesStore : Prop :=
  ∀ (x : Reg) (s : State) (v : Vector Byte 16), s.i.toNat + x.val < s.cfg.memSize →
    ∃ t u, exec (.ldMemVx x) s = .next t ∧ exec (.ldVxMem x) ((t.setI s.i).setV v) = .next u ∧
      ∀ r : Reg, r ≤ x → u.reg r = s.reg r

/-! ## Key and timer instruction family (44_timer_input.md) -/

/-- SKP Vx (`EX9E`) and SKNP Vx (`EXA1`) query the held state of the key `V[X]`, skip by leaving `PC` at `A + 4`, and change nothing
else; a value above 15 raises `KeyOutOfRange` (R211, R212; the range check is the spec's decision D18; patterns: log 8;
the error step commits nothing and reports `A`: D22, D33, log 18). -/
def Obligations.SkipsOnKeysQueryTheHeldState : Prop :=
  ∀ x : Reg,
    (decode (0xE#4 ++ (x.bits ++ 0x9E#8)) = .instr (.skp x) ∧
      decode (0xE#4 ++ (x.bits ++ 0xA1#8)) = .instr (.sknp x)) ∧
    ∀ s : State,
      (∀ k : Key, (s.reg x).toNat = k.val →
        (∃ t, exec (.skp x) s = .next t ∧ Unchanged { pc := true } s t ∧
          t.pc = if s.input.held[k] = true then s.instrAddr + 4 else s.instrAddr + 2) ∧
        (∃ t, exec (.sknp x) s = .next t ∧ Unchanged { pc := true } s t ∧
          t.pc = if s.input.held[k] = false then s.instrAddr + 4 else s.instrAddr + 2)) ∧
      (15 < (s.reg x).toNat →
        (∃ t, exec (.skp x) s = .next t ∧ HaltedAt s t (.keyOutOfRange (s.reg x)) s.instrAddr) ∧
        (∃ t, exec (.sknp x) s = .next t ∧ HaltedAt s t (.keyOutOfRange (s.reg x)) s.instrAddr))

/-- LD Vx, DT (`FX07`), LD DT, Vx (`FX15`) and LD ST, Vx (`FX18`) move one byte and change nothing else, `ACC` included
(R213, R218, R219; patterns: log 8). -/
def Obligations.TimerMoves : Prop :=
  ∀ x : Reg,
    (decode (0xF#4 ++ (x.bits ++ 0x07#8)) = .instr (.ldVxDt x) ∧
      decode (0xF#4 ++ (x.bits ++ 0x15#8)) = .instr (.ldDtVx x) ∧
      decode (0xF#4 ++ (x.bits ++ 0x18#8)) = .instr (.ldStVx x)) ∧
    ∀ s : State,
      (∃ t, exec (.ldVxDt x) s = .next t ∧ t.reg x = s.dt ∧ Unchanged { regs := [x] } s t) ∧
      (∃ t, exec (.ldDtVx x) s = .next t ∧ t.dt = s.reg x ∧ Unchanged { dt := true } s t) ∧
      (∃ t, exec (.ldStVx x) s = .next t ∧ t.st = s.reg x ∧ Unchanged { st := true } s t)

/-- LD Vx, K (`FX0A`): with no key newly pressed `PC` is back at `A` and the mode is `WAITING(X)`; otherwise the code of a newly pressed
key goes to `V[X]` and `PC` stays `A + 2` (R215). -/
def Obligations.LdVxKTakesAKeyOrWaits : Prop :=
  ∀ x : Reg, decode (0xF#4 ++ (x.bits ++ 0x0A#8)) = .instr (.ldVxK x) ∧
    ∀ s : State,
      (s.input.just = [] →
        ∃ t, exec (.ldVxK x) s = .next t ∧ t.pc = s.instrAddr ∧ t.mode = .waiting x ∧
          Unchanged { pc := true, mode := true } s t) ∧
      (s.input.just ≠ [] →
        ∃ k ∈ s.input.just, ∃ t, exec (.ldVxK x) s = .next t ∧ t.reg x = BitVec.ofNat 8 k.val ∧
          Unchanged { regs := [x] } s t)

/-- No choice among the newly pressed keys is shut out: each of them is the one LD Vx, K takes for some draw of the host (R214; the
free choice is the spec's decision D19, log 12). -/
def Obligations.EveryPressedKeyCanBeTaken : Prop :=
  ∀ (x : Reg) (s : State) (k : Key), k ∈ s.input.just →
    ∃ n t, exec (.ldVxK x) (s.setInput { s.input with pick := n }) = .next t ∧ t.reg x = BitVec.ofNat 8 k.val

/-! ## Construction and the snapshot (70_reset_and_hazards.md; 60_exceptions.md R258) -/

/-- Construction is refused when the image does not fit (R272; the spec's decision D32). -/
def Obligations.TooLargeImageIsRefused : Prop :=
  ∀ (c : Config) (initMem : Nat → Byte) (image : List Byte), c.memSize < c.loadBase + image.length →
    State.construct c initMem image = none

/-- Construction with legal parameters and an image that fits gives the state of R270 to R279, for every `INIT_MEM`, and that state
meets the invariant (all values but the load base are the spec's decisions D1 to D6, D27). -/
def Obligations.ConstructionEstablishesTheResetState : Prop :=
  ∀ (c : Config) (initMem : Nat → Byte) (image : List Byte), c.wf = true → c.loadBase + image.length ≤ c.memSize →
    ∃ s, State.construct c initMem image = some s ∧ s.cfg = c ∧ s.Inv ∧
      s.pc.toNat = c.loadBase ∧ (∀ r, s.reg r = 0x00) ∧ s.i = 0x0000 ∧ s.stack = [] ∧ s.dt = 0x00 ∧ s.st = 0x00 ∧
      s.acc = 0 ∧ (∀ x y, Framebuffer.pixel s.fb x y = false) ∧ s.mode = .running ∧
      (∀ k < image.length, s.byteAt (c.loadBase + k) = image.getD k 0) ∧
      (∀ a < c.memSize, (a < c.loadBase ∨ c.loadBase + image.length ≤ a) → s.byteAt a = initMem a)

/-- The state after reset is the construction with `TOBINIO_V7`, the empty image and a memory of zeros (log 5, 6, 15). -/
def Obligations.ResetIsAConstruction : Prop :=
  State.construct (Config.tobinioV7 (Config.freeClockHzPred + 1)) (fun _ => 0x00) [] = some State.reset

/-- The render snapshot: the 16 registers in order, and the grid row by row (R258); and the mode with its error record, which the spec's
decision D41 makes readable (log 16). -/
def Obligations.SnapshotShowsRegistersAndPixels : Prop :=
  ∀ s : State, s.Inv →
    s.snapshot.registers.length = 16 ∧ (∀ r : Reg, s.snapshot.registers[r.val]? = some (s.reg r)) ∧
    s.snapshot.pixels.length = s.cfg.fbH * s.cfg.fbW ∧
    (∀ x y, x < s.cfg.fbW → y < s.cfg.fbH →
      s.snapshot.pixels[y * s.cfg.fbW + x]? = some (Framebuffer.pixel s.fb x y)) ∧
    s.snapshot.mode = s.mode
end

