-- ==== Sys2Proof/Laws/Decode.lean ====
section
/-! SUPPORT. The fields of a word of each format (30_encoding.md R72, R73). -/

namespace Sys2Proof

theorem extract_append_high {a b : Nat} (p : BitVec a) (q : BitVec b) : (p ++ q).extractLsb' b a = p := by
  ext k hk
  simp [BitVec.getLsbD_append, hk]

theorem extract_append_low {a b c : Nat} (p : BitVec a) (q : BitVec b) (s : Nat) (h : s + c ≤ b) :
    (p ++ q).extractLsb' s c = q.extractLsb' s c := by
  ext k hk
  simp [BitVec.getLsbD_append, show s + k < b by omega]

@[simp] theorem Reg.bits_toFin (r : Reg) : (Reg.bits r).toFin = r := rfl

/-! ### format `ADDR` -/

@[simp] theorem fieldOp_encAddr (op : BitVec 4) (nnn : BitVec 12) : fieldOp (encAddr op nnn) = op :=
  extract_append_high op nnn

@[simp] theorem fieldNNN_encAddr (op : BitVec 4) (nnn : BitVec 12) : fieldNNN (encAddr op nnn) = nnn :=
  (extract_append_low op nnn 0 (by omega)).trans (by simp)

/-! ### formats `REG_IMM` and `REG_SUB` -/

@[simp] theorem fieldOp_encRegByte (op : BitVec 4) (x : Reg) (nn : Byte) : fieldOp (encRegByte op x nn) = op :=
  extract_append_high op (x.bits ++ nn)

@[simp] theorem fieldX_encRegByte (op : BitVec 4) (x : Reg) (nn : Byte) : fieldX (encRegByte op x nn) = x := by
  have h : (encRegByte op x nn).extractLsb' 8 4 = x.bits :=
    (extract_append_low op (x.bits ++ nn) 8 (by omega)).trans (extract_append_high x.bits nn)
  simp only [fieldX, h, Reg.bits_toFin]

@[simp] theorem fieldNN_encRegByte (op : BitVec 4) (x : Reg) (nn : Byte) : fieldNN (encRegByte op x nn) = nn :=
  (extract_append_low op (x.bits ++ nn) 0 (by omega)).trans
    ((extract_append_low x.bits nn 0 (by omega)).trans (by simp))

/-! ### formats `REG_REG` and `DRAW` -/

@[simp] theorem fieldOp_encRegReg (op : BitVec 4) (x y : Reg) (n : BitVec 4) : fieldOp (encRegReg op x y n) = op :=
  extract_append_high op (x.bits ++ (y.bits ++ n))

@[simp] theorem fieldX_encRegReg (op : BitVec 4) (x y : Reg) (n : BitVec 4) : fieldX (encRegReg op x y n) = x := by
  have h : (encRegReg op x y n).extractLsb' 8 4 = x.bits :=
    (extract_append_low op (x.bits ++ (y.bits ++ n)) 8 (by omega)).trans (extract_append_high x.bits (y.bits ++ n))
  simp only [fieldX, h, Reg.bits_toFin]

@[simp] theorem fieldY_encRegReg (op : BitVec 4) (x y : Reg) (n : BitVec 4) : fieldY (encRegReg op x y n) = y := by
  have h : (encRegReg op x y n).extractLsb' 4 4 = y.bits :=
    (extract_append_low op (x.bits ++ (y.bits ++ n)) 4 (by omega)).trans
      ((extract_append_low x.bits (y.bits ++ n) 4 (by omega)).trans (extract_append_high y.bits n))
  simp only [fieldY, h, Reg.bits_toFin]

@[simp] theorem fieldN_encRegReg (op : BitVec 4) (x y : Reg) (n : BitVec 4) : fieldN (encRegReg op x y n) = n :=
  (extract_append_low op (x.bits ++ (y.bits ++ n)) 0 (by omega)).trans
    ((extract_append_low x.bits (y.bits ++ n) 0 (by omega)).trans
      ((extract_append_low y.bits n 0 (by omega)).trans (by simp)))

/-- The two bytes of a word make the word (20_memory.md R53, R57). -/
@[simp] theorem wordOfBytes_bytesOfWord (ins : Word) :
    wordOfBytes (ins.extractLsb' 8 8) (ins.extractLsb' 0 8) = ins := by
  have h : ∀ k < 16, (wordOfBytes (ins.extractLsb' 8 8) (ins.extractLsb' 0 8)).getLsbD k = ins.getLsbD k := by
    intro k hk
    simp only [wordOfBytes, BitVec.getLsbD_append, BitVec.getLsbD_extractLsb']
    split
    · simp [*]
    · simp [show k - 8 < 8 by omega, show 8 + (k - 8) = k by omega]
  exact BitVec.eq_of_getLsbD_eq h

end Sys2Proof
end

