-- ==== Sys2Proof/Laws/State.lean ====
section
/-! SUPPORT. One lemma per field per update of State, and register reads and byte reads through each update. -/

namespace Sys2Proof.Machine

/-! ### writeReg -/

@[simp] theorem State.writeReg_v (s : State) (r : Reg) (b : Byte) : (s.writeReg r b).v = s.v.set r.val b r.isLt := rfl
@[simp] theorem State.writeReg_i (s : State) (r : Reg) (b : Byte) : (s.writeReg r b).i = s.i := rfl
@[simp] theorem State.writeReg_pc (s : State) (r : Reg) (b : Byte) : (s.writeReg r b).pc = s.pc := rfl
@[simp] theorem State.writeReg_stack (s : State) (r : Reg) (b : Byte) : (s.writeReg r b).stack = s.stack := rfl
@[simp] theorem State.writeReg_dt (s : State) (r : Reg) (b : Byte) : (s.writeReg r b).dt = s.dt := rfl
@[simp] theorem State.writeReg_st (s : State) (r : Reg) (b : Byte) : (s.writeReg r b).st = s.st := rfl
@[simp] theorem State.writeReg_acc (s : State) (r : Reg) (b : Byte) : (s.writeReg r b).acc = s.acc := rfl
@[simp] theorem State.writeReg_fb (s : State) (r : Reg) (b : Byte) : (s.writeReg r b).fb = s.fb := rfl
@[simp] theorem State.writeReg_mode (s : State) (r : Reg) (b : Byte) : (s.writeReg r b).mode = s.mode := rfl
@[simp] theorem State.writeReg_mem (s : State) (r : Reg) (b : Byte) : (s.writeReg r b).mem = s.mem := rfl
@[simp] theorem State.writeReg_cfg (s : State) (r : Reg) (b : Byte) : (s.writeReg r b).cfg = s.cfg := rfl
@[simp] theorem State.writeReg_pending (s : State) (r : Reg) (b : Byte) : (s.writeReg r b).pending = s.pending := rfl
@[simp] theorem State.writeReg_input (s : State) (r : Reg) (b : Byte) : (s.writeReg r b).input = s.input := rfl
@[simp] theorem State.writeReg_hostDraws (s : State) (r : Reg) (b : Byte) : (s.writeReg r b).hostDraws = s.hostDraws := rfl
@[simp] theorem State.writeReg_byteAt (s : State) (r : Reg) (b : Byte) (k : Nat) : (s.writeReg r b).byteAt k = s.byteAt k := rfl
@[simp] theorem State.writeReg_memRead16 (s : State) (r : Reg) (b : Byte) (k : Nat) : (s.writeReg r b).memRead16 k = s.memRead16 k := rfl
@[simp] theorem State.writeReg_memRead (s : State) (r : Reg) (b : Byte) (k j : Nat) : (s.writeReg r b).memRead k j = s.memRead k j := rfl

/-! ### setV -/

@[simp] theorem State.setV_v (s : State) (v : Vector Byte 16) : (s.setV v).v = v := rfl
@[simp] theorem State.setV_i (s : State) (v : Vector Byte 16) : (s.setV v).i = s.i := rfl
@[simp] theorem State.setV_pc (s : State) (v : Vector Byte 16) : (s.setV v).pc = s.pc := rfl
@[simp] theorem State.setV_stack (s : State) (v : Vector Byte 16) : (s.setV v).stack = s.stack := rfl
@[simp] theorem State.setV_dt (s : State) (v : Vector Byte 16) : (s.setV v).dt = s.dt := rfl
@[simp] theorem State.setV_st (s : State) (v : Vector Byte 16) : (s.setV v).st = s.st := rfl
@[simp] theorem State.setV_acc (s : State) (v : Vector Byte 16) : (s.setV v).acc = s.acc := rfl
@[simp] theorem State.setV_fb (s : State) (v : Vector Byte 16) : (s.setV v).fb = s.fb := rfl
@[simp] theorem State.setV_mode (s : State) (v : Vector Byte 16) : (s.setV v).mode = s.mode := rfl
@[simp] theorem State.setV_mem (s : State) (v : Vector Byte 16) : (s.setV v).mem = s.mem := rfl
@[simp] theorem State.setV_cfg (s : State) (v : Vector Byte 16) : (s.setV v).cfg = s.cfg := rfl
@[simp] theorem State.setV_pending (s : State) (v : Vector Byte 16) : (s.setV v).pending = s.pending := rfl
@[simp] theorem State.setV_input (s : State) (v : Vector Byte 16) : (s.setV v).input = s.input := rfl
@[simp] theorem State.setV_hostDraws (s : State) (v : Vector Byte 16) : (s.setV v).hostDraws = s.hostDraws := rfl
@[simp] theorem State.setV_byteAt (s : State) (v : Vector Byte 16) (k : Nat) : (s.setV v).byteAt k = s.byteAt k := rfl
@[simp] theorem State.setV_memRead16 (s : State) (v : Vector Byte 16) (k : Nat) : (s.setV v).memRead16 k = s.memRead16 k := rfl
@[simp] theorem State.setV_memRead (s : State) (v : Vector Byte 16) (k j : Nat) : (s.setV v).memRead k j = s.memRead k j := rfl

/-! ### setI -/

@[simp] theorem State.setI_v (s : State) (w : Word) : (s.setI w).v = s.v := rfl
@[simp] theorem State.setI_i (s : State) (w : Word) : (s.setI w).i = w := rfl
@[simp] theorem State.setI_pc (s : State) (w : Word) : (s.setI w).pc = s.pc := rfl
@[simp] theorem State.setI_stack (s : State) (w : Word) : (s.setI w).stack = s.stack := rfl
@[simp] theorem State.setI_dt (s : State) (w : Word) : (s.setI w).dt = s.dt := rfl
@[simp] theorem State.setI_st (s : State) (w : Word) : (s.setI w).st = s.st := rfl
@[simp] theorem State.setI_acc (s : State) (w : Word) : (s.setI w).acc = s.acc := rfl
@[simp] theorem State.setI_fb (s : State) (w : Word) : (s.setI w).fb = s.fb := rfl
@[simp] theorem State.setI_mode (s : State) (w : Word) : (s.setI w).mode = s.mode := rfl
@[simp] theorem State.setI_mem (s : State) (w : Word) : (s.setI w).mem = s.mem := rfl
@[simp] theorem State.setI_cfg (s : State) (w : Word) : (s.setI w).cfg = s.cfg := rfl
@[simp] theorem State.setI_pending (s : State) (w : Word) : (s.setI w).pending = s.pending := rfl
@[simp] theorem State.setI_input (s : State) (w : Word) : (s.setI w).input = s.input := rfl
@[simp] theorem State.setI_hostDraws (s : State) (w : Word) : (s.setI w).hostDraws = s.hostDraws := rfl
@[simp] theorem State.setI_reg (s : State) (w : Word) (q : Reg) : (s.setI w).reg q = s.reg q := rfl
@[simp] theorem State.setI_byteAt (s : State) (w : Word) (k : Nat) : (s.setI w).byteAt k = s.byteAt k := rfl
@[simp] theorem State.setI_memRead16 (s : State) (w : Word) (k : Nat) : (s.setI w).memRead16 k = s.memRead16 k := rfl
@[simp] theorem State.setI_memRead (s : State) (w : Word) (k j : Nat) : (s.setI w).memRead k j = s.memRead k j := rfl

/-! ### setPc -/

@[simp] theorem State.setPc_v (s : State) (w : Word) : (s.setPc w).v = s.v := rfl
@[simp] theorem State.setPc_i (s : State) (w : Word) : (s.setPc w).i = s.i := rfl
@[simp] theorem State.setPc_pc (s : State) (w : Word) : (s.setPc w).pc = w := rfl
@[simp] theorem State.setPc_stack (s : State) (w : Word) : (s.setPc w).stack = s.stack := rfl
@[simp] theorem State.setPc_dt (s : State) (w : Word) : (s.setPc w).dt = s.dt := rfl
@[simp] theorem State.setPc_st (s : State) (w : Word) : (s.setPc w).st = s.st := rfl
@[simp] theorem State.setPc_acc (s : State) (w : Word) : (s.setPc w).acc = s.acc := rfl
@[simp] theorem State.setPc_fb (s : State) (w : Word) : (s.setPc w).fb = s.fb := rfl
@[simp] theorem State.setPc_mode (s : State) (w : Word) : (s.setPc w).mode = s.mode := rfl
@[simp] theorem State.setPc_mem (s : State) (w : Word) : (s.setPc w).mem = s.mem := rfl
@[simp] theorem State.setPc_cfg (s : State) (w : Word) : (s.setPc w).cfg = s.cfg := rfl
@[simp] theorem State.setPc_pending (s : State) (w : Word) : (s.setPc w).pending = s.pending := rfl
@[simp] theorem State.setPc_input (s : State) (w : Word) : (s.setPc w).input = s.input := rfl
@[simp] theorem State.setPc_hostDraws (s : State) (w : Word) : (s.setPc w).hostDraws = s.hostDraws := rfl
@[simp] theorem State.setPc_reg (s : State) (w : Word) (q : Reg) : (s.setPc w).reg q = s.reg q := rfl
@[simp] theorem State.setPc_byteAt (s : State) (w : Word) (k : Nat) : (s.setPc w).byteAt k = s.byteAt k := rfl
@[simp] theorem State.setPc_memRead16 (s : State) (w : Word) (k : Nat) : (s.setPc w).memRead16 k = s.memRead16 k := rfl
@[simp] theorem State.setPc_memRead (s : State) (w : Word) (k j : Nat) : (s.setPc w).memRead k j = s.memRead k j := rfl

/-! ### setStack -/

@[simp] theorem State.setStack_v (s : State) (l : List Word) : (s.setStack l).v = s.v := rfl
@[simp] theorem State.setStack_i (s : State) (l : List Word) : (s.setStack l).i = s.i := rfl
@[simp] theorem State.setStack_pc (s : State) (l : List Word) : (s.setStack l).pc = s.pc := rfl
@[simp] theorem State.setStack_stack (s : State) (l : List Word) : (s.setStack l).stack = l := rfl
@[simp] theorem State.setStack_dt (s : State) (l : List Word) : (s.setStack l).dt = s.dt := rfl
@[simp] theorem State.setStack_st (s : State) (l : List Word) : (s.setStack l).st = s.st := rfl
@[simp] theorem State.setStack_acc (s : State) (l : List Word) : (s.setStack l).acc = s.acc := rfl
@[simp] theorem State.setStack_fb (s : State) (l : List Word) : (s.setStack l).fb = s.fb := rfl
@[simp] theorem State.setStack_mode (s : State) (l : List Word) : (s.setStack l).mode = s.mode := rfl
@[simp] theorem State.setStack_mem (s : State) (l : List Word) : (s.setStack l).mem = s.mem := rfl
@[simp] theorem State.setStack_cfg (s : State) (l : List Word) : (s.setStack l).cfg = s.cfg := rfl
@[simp] theorem State.setStack_pending (s : State) (l : List Word) : (s.setStack l).pending = s.pending := rfl
@[simp] theorem State.setStack_input (s : State) (l : List Word) : (s.setStack l).input = s.input := rfl
@[simp] theorem State.setStack_hostDraws (s : State) (l : List Word) : (s.setStack l).hostDraws = s.hostDraws := rfl
@[simp] theorem State.setStack_reg (s : State) (l : List Word) (q : Reg) : (s.setStack l).reg q = s.reg q := rfl
@[simp] theorem State.setStack_byteAt (s : State) (l : List Word) (k : Nat) : (s.setStack l).byteAt k = s.byteAt k := rfl
@[simp] theorem State.setStack_memRead16 (s : State) (l : List Word) (k : Nat) : (s.setStack l).memRead16 k = s.memRead16 k := rfl
@[simp] theorem State.setStack_memRead (s : State) (l : List Word) (k j : Nat) : (s.setStack l).memRead k j = s.memRead k j := rfl

/-! ### setDt -/

@[simp] theorem State.setDt_v (s : State) (b : Byte) : (s.setDt b).v = s.v := rfl
@[simp] theorem State.setDt_i (s : State) (b : Byte) : (s.setDt b).i = s.i := rfl
@[simp] theorem State.setDt_pc (s : State) (b : Byte) : (s.setDt b).pc = s.pc := rfl
@[simp] theorem State.setDt_stack (s : State) (b : Byte) : (s.setDt b).stack = s.stack := rfl
@[simp] theorem State.setDt_dt (s : State) (b : Byte) : (s.setDt b).dt = b := rfl
@[simp] theorem State.setDt_st (s : State) (b : Byte) : (s.setDt b).st = s.st := rfl
@[simp] theorem State.setDt_acc (s : State) (b : Byte) : (s.setDt b).acc = s.acc := rfl
@[simp] theorem State.setDt_fb (s : State) (b : Byte) : (s.setDt b).fb = s.fb := rfl
@[simp] theorem State.setDt_mode (s : State) (b : Byte) : (s.setDt b).mode = s.mode := rfl
@[simp] theorem State.setDt_mem (s : State) (b : Byte) : (s.setDt b).mem = s.mem := rfl
@[simp] theorem State.setDt_cfg (s : State) (b : Byte) : (s.setDt b).cfg = s.cfg := rfl
@[simp] theorem State.setDt_pending (s : State) (b : Byte) : (s.setDt b).pending = s.pending := rfl
@[simp] theorem State.setDt_input (s : State) (b : Byte) : (s.setDt b).input = s.input := rfl
@[simp] theorem State.setDt_hostDraws (s : State) (b : Byte) : (s.setDt b).hostDraws = s.hostDraws := rfl
@[simp] theorem State.setDt_reg (s : State) (b : Byte) (q : Reg) : (s.setDt b).reg q = s.reg q := rfl
@[simp] theorem State.setDt_byteAt (s : State) (b : Byte) (k : Nat) : (s.setDt b).byteAt k = s.byteAt k := rfl
@[simp] theorem State.setDt_memRead16 (s : State) (b : Byte) (k : Nat) : (s.setDt b).memRead16 k = s.memRead16 k := rfl
@[simp] theorem State.setDt_memRead (s : State) (b : Byte) (k j : Nat) : (s.setDt b).memRead k j = s.memRead k j := rfl

/-! ### setSt -/

@[simp] theorem State.setSt_v (s : State) (b : Byte) : (s.setSt b).v = s.v := rfl
@[simp] theorem State.setSt_i (s : State) (b : Byte) : (s.setSt b).i = s.i := rfl
@[simp] theorem State.setSt_pc (s : State) (b : Byte) : (s.setSt b).pc = s.pc := rfl
@[simp] theorem State.setSt_stack (s : State) (b : Byte) : (s.setSt b).stack = s.stack := rfl
@[simp] theorem State.setSt_dt (s : State) (b : Byte) : (s.setSt b).dt = s.dt := rfl
@[simp] theorem State.setSt_st (s : State) (b : Byte) : (s.setSt b).st = b := rfl
@[simp] theorem State.setSt_acc (s : State) (b : Byte) : (s.setSt b).acc = s.acc := rfl
@[simp] theorem State.setSt_fb (s : State) (b : Byte) : (s.setSt b).fb = s.fb := rfl
@[simp] theorem State.setSt_mode (s : State) (b : Byte) : (s.setSt b).mode = s.mode := rfl
@[simp] theorem State.setSt_mem (s : State) (b : Byte) : (s.setSt b).mem = s.mem := rfl
@[simp] theorem State.setSt_cfg (s : State) (b : Byte) : (s.setSt b).cfg = s.cfg := rfl
@[simp] theorem State.setSt_pending (s : State) (b : Byte) : (s.setSt b).pending = s.pending := rfl
@[simp] theorem State.setSt_input (s : State) (b : Byte) : (s.setSt b).input = s.input := rfl
@[simp] theorem State.setSt_hostDraws (s : State) (b : Byte) : (s.setSt b).hostDraws = s.hostDraws := rfl
@[simp] theorem State.setSt_reg (s : State) (b : Byte) (q : Reg) : (s.setSt b).reg q = s.reg q := rfl
@[simp] theorem State.setSt_byteAt (s : State) (b : Byte) (k : Nat) : (s.setSt b).byteAt k = s.byteAt k := rfl
@[simp] theorem State.setSt_memRead16 (s : State) (b : Byte) (k : Nat) : (s.setSt b).memRead16 k = s.memRead16 k := rfl
@[simp] theorem State.setSt_memRead (s : State) (b : Byte) (k j : Nat) : (s.setSt b).memRead k j = s.memRead k j := rfl

/-! ### setAcc -/

@[simp] theorem State.setAcc_v (s : State) (n : Nat) : (s.setAcc n).v = s.v := rfl
@[simp] theorem State.setAcc_i (s : State) (n : Nat) : (s.setAcc n).i = s.i := rfl
@[simp] theorem State.setAcc_pc (s : State) (n : Nat) : (s.setAcc n).pc = s.pc := rfl
@[simp] theorem State.setAcc_stack (s : State) (n : Nat) : (s.setAcc n).stack = s.stack := rfl
@[simp] theorem State.setAcc_dt (s : State) (n : Nat) : (s.setAcc n).dt = s.dt := rfl
@[simp] theorem State.setAcc_st (s : State) (n : Nat) : (s.setAcc n).st = s.st := rfl
@[simp] theorem State.setAcc_acc (s : State) (n : Nat) : (s.setAcc n).acc = n := rfl
@[simp] theorem State.setAcc_fb (s : State) (n : Nat) : (s.setAcc n).fb = s.fb := rfl
@[simp] theorem State.setAcc_mode (s : State) (n : Nat) : (s.setAcc n).mode = s.mode := rfl
@[simp] theorem State.setAcc_mem (s : State) (n : Nat) : (s.setAcc n).mem = s.mem := rfl
@[simp] theorem State.setAcc_cfg (s : State) (n : Nat) : (s.setAcc n).cfg = s.cfg := rfl
@[simp] theorem State.setAcc_pending (s : State) (n : Nat) : (s.setAcc n).pending = s.pending := rfl
@[simp] theorem State.setAcc_input (s : State) (n : Nat) : (s.setAcc n).input = s.input := rfl
@[simp] theorem State.setAcc_hostDraws (s : State) (n : Nat) : (s.setAcc n).hostDraws = s.hostDraws := rfl
@[simp] theorem State.setAcc_reg (s : State) (n : Nat) (q : Reg) : (s.setAcc n).reg q = s.reg q := rfl
@[simp] theorem State.setAcc_byteAt (s : State) (n : Nat) (k : Nat) : (s.setAcc n).byteAt k = s.byteAt k := rfl
@[simp] theorem State.setAcc_memRead16 (s : State) (n : Nat) (k : Nat) : (s.setAcc n).memRead16 k = s.memRead16 k := rfl
@[simp] theorem State.setAcc_memRead (s : State) (n : Nat) (k j : Nat) : (s.setAcc n).memRead k j = s.memRead k j := rfl

/-! ### setFb -/

@[simp] theorem State.setFb_v (s : State) (f : Framebuffer) : (s.setFb f).v = s.v := rfl
@[simp] theorem State.setFb_i (s : State) (f : Framebuffer) : (s.setFb f).i = s.i := rfl
@[simp] theorem State.setFb_pc (s : State) (f : Framebuffer) : (s.setFb f).pc = s.pc := rfl
@[simp] theorem State.setFb_stack (s : State) (f : Framebuffer) : (s.setFb f).stack = s.stack := rfl
@[simp] theorem State.setFb_dt (s : State) (f : Framebuffer) : (s.setFb f).dt = s.dt := rfl
@[simp] theorem State.setFb_st (s : State) (f : Framebuffer) : (s.setFb f).st = s.st := rfl
@[simp] theorem State.setFb_acc (s : State) (f : Framebuffer) : (s.setFb f).acc = s.acc := rfl
@[simp] theorem State.setFb_fb (s : State) (f : Framebuffer) : (s.setFb f).fb = f := rfl
@[simp] theorem State.setFb_mode (s : State) (f : Framebuffer) : (s.setFb f).mode = s.mode := rfl
@[simp] theorem State.setFb_mem (s : State) (f : Framebuffer) : (s.setFb f).mem = s.mem := rfl
@[simp] theorem State.setFb_cfg (s : State) (f : Framebuffer) : (s.setFb f).cfg = s.cfg := rfl
@[simp] theorem State.setFb_pending (s : State) (f : Framebuffer) : (s.setFb f).pending = s.pending := rfl
@[simp] theorem State.setFb_input (s : State) (f : Framebuffer) : (s.setFb f).input = s.input := rfl
@[simp] theorem State.setFb_hostDraws (s : State) (f : Framebuffer) : (s.setFb f).hostDraws = s.hostDraws := rfl
@[simp] theorem State.setFb_reg (s : State) (f : Framebuffer) (q : Reg) : (s.setFb f).reg q = s.reg q := rfl
@[simp] theorem State.setFb_byteAt (s : State) (f : Framebuffer) (k : Nat) : (s.setFb f).byteAt k = s.byteAt k := rfl
@[simp] theorem State.setFb_memRead16 (s : State) (f : Framebuffer) (k : Nat) : (s.setFb f).memRead16 k = s.memRead16 k := rfl
@[simp] theorem State.setFb_memRead (s : State) (f : Framebuffer) (k j : Nat) : (s.setFb f).memRead k j = s.memRead k j := rfl

/-! ### setMode -/

@[simp] theorem State.setMode_v (s : State) (m : Mode) : (s.setMode m).v = s.v := rfl
@[simp] theorem State.setMode_i (s : State) (m : Mode) : (s.setMode m).i = s.i := rfl
@[simp] theorem State.setMode_pc (s : State) (m : Mode) : (s.setMode m).pc = s.pc := rfl
@[simp] theorem State.setMode_stack (s : State) (m : Mode) : (s.setMode m).stack = s.stack := rfl
@[simp] theorem State.setMode_dt (s : State) (m : Mode) : (s.setMode m).dt = s.dt := rfl
@[simp] theorem State.setMode_st (s : State) (m : Mode) : (s.setMode m).st = s.st := rfl
@[simp] theorem State.setMode_acc (s : State) (m : Mode) : (s.setMode m).acc = s.acc := rfl
@[simp] theorem State.setMode_fb (s : State) (m : Mode) : (s.setMode m).fb = s.fb := rfl
@[simp] theorem State.setMode_mode (s : State) (m : Mode) : (s.setMode m).mode = m := rfl
@[simp] theorem State.setMode_mem (s : State) (m : Mode) : (s.setMode m).mem = s.mem := rfl
@[simp] theorem State.setMode_cfg (s : State) (m : Mode) : (s.setMode m).cfg = s.cfg := rfl
@[simp] theorem State.setMode_pending (s : State) (m : Mode) : (s.setMode m).pending = s.pending := rfl
@[simp] theorem State.setMode_input (s : State) (m : Mode) : (s.setMode m).input = s.input := rfl
@[simp] theorem State.setMode_hostDraws (s : State) (m : Mode) : (s.setMode m).hostDraws = s.hostDraws := rfl
@[simp] theorem State.setMode_reg (s : State) (m : Mode) (q : Reg) : (s.setMode m).reg q = s.reg q := rfl
@[simp] theorem State.setMode_byteAt (s : State) (m : Mode) (k : Nat) : (s.setMode m).byteAt k = s.byteAt k := rfl
@[simp] theorem State.setMode_memRead16 (s : State) (m : Mode) (k : Nat) : (s.setMode m).memRead16 k = s.memRead16 k := rfl
@[simp] theorem State.setMode_memRead (s : State) (m : Mode) (k j : Nat) : (s.setMode m).memRead k j = s.memRead k j := rfl

/-! ### setMem -/

@[simp] theorem State.setMem_v (s : State) (m : Memory) : (s.setMem m).v = s.v := rfl
@[simp] theorem State.setMem_i (s : State) (m : Memory) : (s.setMem m).i = s.i := rfl
@[simp] theorem State.setMem_pc (s : State) (m : Memory) : (s.setMem m).pc = s.pc := rfl
@[simp] theorem State.setMem_stack (s : State) (m : Memory) : (s.setMem m).stack = s.stack := rfl
@[simp] theorem State.setMem_dt (s : State) (m : Memory) : (s.setMem m).dt = s.dt := rfl
@[simp] theorem State.setMem_st (s : State) (m : Memory) : (s.setMem m).st = s.st := rfl
@[simp] theorem State.setMem_acc (s : State) (m : Memory) : (s.setMem m).acc = s.acc := rfl
@[simp] theorem State.setMem_fb (s : State) (m : Memory) : (s.setMem m).fb = s.fb := rfl
@[simp] theorem State.setMem_mode (s : State) (m : Memory) : (s.setMem m).mode = s.mode := rfl
@[simp] theorem State.setMem_mem (s : State) (m : Memory) : (s.setMem m).mem = m := rfl
@[simp] theorem State.setMem_cfg (s : State) (m : Memory) : (s.setMem m).cfg = s.cfg := rfl
@[simp] theorem State.setMem_pending (s : State) (m : Memory) : (s.setMem m).pending = s.pending := rfl
@[simp] theorem State.setMem_input (s : State) (m : Memory) : (s.setMem m).input = s.input := rfl
@[simp] theorem State.setMem_hostDraws (s : State) (m : Memory) : (s.setMem m).hostDraws = s.hostDraws := rfl
@[simp] theorem State.setMem_reg (s : State) (m : Memory) (q : Reg) : (s.setMem m).reg q = s.reg q := rfl

/-! ### setPending -/

@[simp] theorem State.setPending_v (s : State) (l : List HostAction) : (s.setPending l).v = s.v := rfl
@[simp] theorem State.setPending_i (s : State) (l : List HostAction) : (s.setPending l).i = s.i := rfl
@[simp] theorem State.setPending_pc (s : State) (l : List HostAction) : (s.setPending l).pc = s.pc := rfl
@[simp] theorem State.setPending_stack (s : State) (l : List HostAction) : (s.setPending l).stack = s.stack := rfl
@[simp] theorem State.setPending_dt (s : State) (l : List HostAction) : (s.setPending l).dt = s.dt := rfl
@[simp] theorem State.setPending_st (s : State) (l : List HostAction) : (s.setPending l).st = s.st := rfl
@[simp] theorem State.setPending_acc (s : State) (l : List HostAction) : (s.setPending l).acc = s.acc := rfl
@[simp] theorem State.setPending_fb (s : State) (l : List HostAction) : (s.setPending l).fb = s.fb := rfl
@[simp] theorem State.setPending_mode (s : State) (l : List HostAction) : (s.setPending l).mode = s.mode := rfl
@[simp] theorem State.setPending_mem (s : State) (l : List HostAction) : (s.setPending l).mem = s.mem := rfl
@[simp] theorem State.setPending_cfg (s : State) (l : List HostAction) : (s.setPending l).cfg = s.cfg := rfl
@[simp] theorem State.setPending_pending (s : State) (l : List HostAction) : (s.setPending l).pending = l := rfl
@[simp] theorem State.setPending_input (s : State) (l : List HostAction) : (s.setPending l).input = s.input := rfl
@[simp] theorem State.setPending_hostDraws (s : State) (l : List HostAction) : (s.setPending l).hostDraws = s.hostDraws := rfl
@[simp] theorem State.setPending_reg (s : State) (l : List HostAction) (q : Reg) : (s.setPending l).reg q = s.reg q := rfl
@[simp] theorem State.setPending_byteAt (s : State) (l : List HostAction) (k : Nat) : (s.setPending l).byteAt k = s.byteAt k := rfl
@[simp] theorem State.setPending_memRead16 (s : State) (l : List HostAction) (k : Nat) : (s.setPending l).memRead16 k = s.memRead16 k := rfl
@[simp] theorem State.setPending_memRead (s : State) (l : List HostAction) (k j : Nat) : (s.setPending l).memRead k j = s.memRead k j := rfl

/-! ### setInput -/

@[simp] theorem State.setInput_v (s : State) (inp : StepInput) : (s.setInput inp).v = s.v := rfl
@[simp] theorem State.setInput_i (s : State) (inp : StepInput) : (s.setInput inp).i = s.i := rfl
@[simp] theorem State.setInput_pc (s : State) (inp : StepInput) : (s.setInput inp).pc = s.pc := rfl
@[simp] theorem State.setInput_stack (s : State) (inp : StepInput) : (s.setInput inp).stack = s.stack := rfl
@[simp] theorem State.setInput_dt (s : State) (inp : StepInput) : (s.setInput inp).dt = s.dt := rfl
@[simp] theorem State.setInput_st (s : State) (inp : StepInput) : (s.setInput inp).st = s.st := rfl
@[simp] theorem State.setInput_acc (s : State) (inp : StepInput) : (s.setInput inp).acc = s.acc := rfl
@[simp] theorem State.setInput_fb (s : State) (inp : StepInput) : (s.setInput inp).fb = s.fb := rfl
@[simp] theorem State.setInput_mode (s : State) (inp : StepInput) : (s.setInput inp).mode = s.mode := rfl
@[simp] theorem State.setInput_mem (s : State) (inp : StepInput) : (s.setInput inp).mem = s.mem := rfl
@[simp] theorem State.setInput_cfg (s : State) (inp : StepInput) : (s.setInput inp).cfg = s.cfg := rfl
@[simp] theorem State.setInput_pending (s : State) (inp : StepInput) : (s.setInput inp).pending = s.pending := rfl
@[simp] theorem State.setInput_input (s : State) (inp : StepInput) : (s.setInput inp).input = inp := rfl
@[simp] theorem State.setInput_hostDraws (s : State) (inp : StepInput) : (s.setInput inp).hostDraws = s.hostDraws := rfl
@[simp] theorem State.setInput_reg (s : State) (inp : StepInput) (q : Reg) : (s.setInput inp).reg q = s.reg q := rfl
@[simp] theorem State.setInput_byteAt (s : State) (inp : StepInput) (k : Nat) : (s.setInput inp).byteAt k = s.byteAt k := rfl
@[simp] theorem State.setInput_memRead16 (s : State) (inp : StepInput) (k : Nat) : (s.setInput inp).memRead16 k = s.memRead16 k := rfl
@[simp] theorem State.setInput_memRead (s : State) (inp : StepInput) (k j : Nat) : (s.setInput inp).memRead k j = s.memRead k j := rfl

/-! ### setHostDraws -/

@[simp] theorem State.setHostDraws_v (s : State) (n : Nat) : (s.setHostDraws n).v = s.v := rfl
@[simp] theorem State.setHostDraws_i (s : State) (n : Nat) : (s.setHostDraws n).i = s.i := rfl
@[simp] theorem State.setHostDraws_pc (s : State) (n : Nat) : (s.setHostDraws n).pc = s.pc := rfl
@[simp] theorem State.setHostDraws_stack (s : State) (n : Nat) : (s.setHostDraws n).stack = s.stack := rfl
@[simp] theorem State.setHostDraws_dt (s : State) (n : Nat) : (s.setHostDraws n).dt = s.dt := rfl
@[simp] theorem State.setHostDraws_st (s : State) (n : Nat) : (s.setHostDraws n).st = s.st := rfl
@[simp] theorem State.setHostDraws_acc (s : State) (n : Nat) : (s.setHostDraws n).acc = s.acc := rfl
@[simp] theorem State.setHostDraws_fb (s : State) (n : Nat) : (s.setHostDraws n).fb = s.fb := rfl
@[simp] theorem State.setHostDraws_mode (s : State) (n : Nat) : (s.setHostDraws n).mode = s.mode := rfl
@[simp] theorem State.setHostDraws_mem (s : State) (n : Nat) : (s.setHostDraws n).mem = s.mem := rfl
@[simp] theorem State.setHostDraws_cfg (s : State) (n : Nat) : (s.setHostDraws n).cfg = s.cfg := rfl
@[simp] theorem State.setHostDraws_pending (s : State) (n : Nat) : (s.setHostDraws n).pending = s.pending := rfl
@[simp] theorem State.setHostDraws_input (s : State) (n : Nat) : (s.setHostDraws n).input = s.input := rfl
@[simp] theorem State.setHostDraws_hostDraws (s : State) (n : Nat) : (s.setHostDraws n).hostDraws = n := rfl
@[simp] theorem State.setHostDraws_reg (s : State) (n : Nat) (q : Reg) : (s.setHostDraws n).reg q = s.reg q := rfl
@[simp] theorem State.setHostDraws_byteAt (s : State) (n : Nat) (k : Nat) : (s.setHostDraws n).byteAt k = s.byteAt k := rfl
@[simp] theorem State.setHostDraws_memRead16 (s : State) (n : Nat) (k : Nat) : (s.setHostDraws n).memRead16 k = s.memRead16 k := rfl
@[simp] theorem State.setHostDraws_memRead (s : State) (n : Nat) (k j : Nat) : (s.setHostDraws n).memRead k j = s.memRead k j := rfl

/-! ### registers -/

/-- A register reads as last written (10_state.md R20). -/
theorem State.reg_writeReg (s : State) (r q : Reg) (b : Byte) :
    (s.writeReg r b).reg q = if r = q then b else s.reg q := by
  simp only [State.reg, State.writeReg, Vector.get_eq_getElem, Vector.getElem_set, Fin.ext_iff]

@[simp] theorem State.reg_writeReg_same (s : State) (r : Reg) (b : Byte) : (s.writeReg r b).reg r = b := by
  simp [State.reg_writeReg]

theorem State.reg_writeReg_other (s : State) {r q : Reg} (b : Byte) (h : r ≠ q) : (s.writeReg r b).reg q = s.reg q := by
  simp [State.reg_writeReg, h]

/-- Two register files that read alike are equal. -/
theorem regs_ext {s t : State} (h : ∀ r, s.reg r = t.reg r) : s.v = t.v := by
  apply Vector.ext
  intro k hk
  exact h ⟨k, hk⟩

/-- The advance is a write of `PC`. -/
@[simp] theorem State.advance_eq (s : State) : s.advance = s.setPc (s.pc + 2) := rfl

/-- The address `A` of an instruction, from the `PC` it finds. -/
@[simp] theorem State.setPc_instrAddr (s : State) (w : Word) : (s.setPc w).instrAddr = w - 2 := rfl

end Sys2Proof.Machine
end

