-- ==== Sys2Proof/Laws/Framebuffer.lean ====
section
/-! SUPPORT. The framebuffer: pixels through a flip, and the size of the grid (40_display.md R100, R101). -/

namespace Sys2Proof.Machine

/-- The grid has `h` rows of `w` pixels. -/
def Framebuffer.Sized (w h : Nat) (f : Framebuffer) : Prop := f.length = h ∧ ∀ row ∈ f, row.length = w

theorem Framebuffer.clear_sized (w h : Nat) : Framebuffer.Sized w h (Framebuffer.clear w h) := by
  constructor
  · simp [Framebuffer.clear]
  · intro row hrow
    simp [Framebuffer.clear, List.mem_replicate] at hrow
    simp [hrow.2]

@[simp] theorem Framebuffer.pixel_clear (w h x y : Nat) : Framebuffer.pixel (Framebuffer.clear w h) x y = false := by
  simp only [Framebuffer.pixel, Framebuffer.clear, List.getD_eq_getElem?_getD, List.getElem?_replicate]
  split
  · simp only [Option.getD_some, List.getElem?_replicate]
    split <;> rfl
  · rfl

/-- A pixel of a sized grid after a modification of one. -/
theorem Framebuffer.pixel_modify {w h : Nat} {f : Framebuffer} (hf : Framebuffer.Sized w h f) {x y : Nat} (hx : x < w)
    (hy : y < h) (p q : Nat) :
    Framebuffer.pixel (f.modify y (fun row => row.modify x Bool.not)) p q =
      if p = x ∧ q = y then !(Framebuffer.pixel f x y) else Framebuffer.pixel f p q := by
  have hyl : y < f.length := by rw [hf.1]; exact hy
  have hxl : x < f[y].length := by rw [hf.2 _ (List.getElem_mem hyl)]; exact hx
  simp only [Framebuffer.pixel, List.getD_eq_getElem?_getD, List.getElem?_modify]
  by_cases hq : q = y
  · subst hq
    simp only [hyl, List.getElem?_eq_getElem, Option.map_eq_map, Option.map_some, if_true, Option.getD_some,
      List.getElem?_modify]
    by_cases hp : p = x
    · subst hp
      simp [hxl]
    · simp [hp, Ne.symm hp]
  · simp [hq, Ne.symm hq]

theorem Framebuffer.modify_sized {w h : Nat} {f : Framebuffer} (hf : Framebuffer.Sized w h f) (x y : Nat) :
    Framebuffer.Sized w h (f.modify y (fun row => row.modify x Bool.not)) := by
  refine ⟨by simp [hf.1], fun row hrow => ?_⟩
  obtain ⟨k, hk, rfl⟩ := List.getElem_of_mem hrow
  have hk' : k < f.length := by simpa using hk
  have := hf.2 f[k] (List.getElem_mem hk')
  rw [List.getElem_modify]
  split <;> simp [this]

/-- A flip keeps the size of the grid. -/
theorem flipPixel_sized {w h : Nat} {f : Framebuffer} (hf : Framebuffer.Sized w h f) (x y : Nat) :
    Framebuffer.Sized w h (flipPixel w h f x y).1 := by
  unfold flipPixel
  split
  · exact Framebuffer.modify_sized hf x y
  · exact hf

/-- Every pixel after a flip (R100): inside the grid the one named is inverted, every other is as before. -/
theorem pixel_flipPixel {w h : Nat} {f : Framebuffer} (hf : Framebuffer.Sized w h f) (x y p q : Nat) :
    Framebuffer.pixel (flipPixel w h f x y).1 p q =
      if x < w ∧ y < h ∧ p = x ∧ q = y then !(Framebuffer.pixel f x y) else Framebuffer.pixel f p q := by
  unfold flipPixel
  split
  · rename_i hxy
    simp [Framebuffer.pixel_modify hf hxy.1 hxy.2, hxy]
  · rename_i hxy
    rw [if_neg (fun hc => hxy ⟨hc.1, hc.2.1⟩)]

/-- Flips keep the size of the grid. -/
theorem flipAll_sized {w h : Nat} {f : Framebuffer} (hf : Framebuffer.Sized w h f) (ps : List (Nat × Nat)) :
    Framebuffer.Sized w h (flipAll w h f ps).1 := by
  induction ps generalizing f with
  | nil => exact hf
  | cons p ps ih => exact ih (flipPixel_sized hf p.1 p.2)

/-- Two sized grids that agree on every pixel are equal. -/
theorem Framebuffer.ext_pixel {w h : Nat} {f g : Framebuffer} (hf : Framebuffer.Sized w h f)
    (hg : Framebuffer.Sized w h g) (hfg : ∀ x y, Framebuffer.pixel f x y = Framebuffer.pixel g x y) : f = g := by
  refine List.ext_getElem (hf.1.trans hg.1.symm) (fun y hy hy' => ?_)
  have hfr := hf.2 f[y] (List.getElem_mem hy)
  have hgr := hg.2 g[y] (List.getElem_mem hy')
  refine List.ext_getElem (hfr.trans hgr.symm) (fun x hx hx' => ?_)
  have := hfg x y
  simpa [Framebuffer.pixel, List.getD_eq_getElem?_getD, hy, hy', hx, hx'] using this

/-- Everything `flipAll` does: each pixel on the grid is inverted once for each time the list names it, and the flag is set when
some flip, in order, met a set pixel. -/
theorem flipAll_spec (w h : Nat) (ps : List (Nat × Nat)) (f : Framebuffer) (hf : Framebuffer.Sized w h f) :
    (∀ p q, p < w → q < h → Framebuffer.pixel (flipAll w h f ps).1 p q = (Framebuffer.pixel f p q ^^ decide (ps.count (p,q) % 2 = 1))) ∧
    ((flipAll w h f ps).2 = true ↔ ∃ j p q, ps[j]? = some (p,q) ∧ p < w ∧ q < h ∧ (Framebuffer.pixel f p q ^^ decide ((ps.take j).count (p,q) % 2 = 1)) = true) := by
  induction ps generalizing f with
  | nil => simp [flipAll]
  | cons a ps ih =>
    obtain ⟨ih1, ih2⟩ := ih (flipPixel w h f a.1 a.2).1 (flipPixel_sized hf _ _)
    have par : ∀ n : Nat, decide ((n+1) % 2 = 1) = !decide (n % 2 = 1) := by intro n; rw [← decide_not, decide_eq_decide]; omega
    have key : ∀ p q, p < w → q < h → ∀ l : List (Nat × Nat), (Framebuffer.pixel (flipPixel w h f a.1 a.2).1 p q ^^ decide (l.count (p,q) % 2 = 1)) = (Framebuffer.pixel f p q ^^ decide ((a :: l).count (p,q) % 2 = 1)) := by
      intro p q hp hq l
      rw [pixel_flipPixel hf, List.count_cons]
      by_cases e : a = (p,q)
      · subst e; simp [hp, hq, par]
      · rw [if_neg (by rintro ⟨_, _, rfl, rfl⟩; exact e rfl)]; simp [e]
    refine ⟨fun p q hp hq => ?_, ?_⟩
    · simp only [flipAll]; rw [ih1 p q hp hq, key p q hp hq]
    · simp only [flipAll, Bool.or_eq_true]; rw [ih2]
      constructor
      · rintro (hh | ⟨j, p, q, a1, a2, a3, a4⟩)
        · unfold flipPixel at hh; split at hh
          · exact ⟨0, a.1, a.2, by simp, by omega, by omega, by simpa using hh⟩
          · simp at hh
        · exact ⟨j+1, p, q, by simpa using a1, a2, a3, by rw [List.take_succ_cons, ← key p q a2 a3]; exact a4⟩
      · rintro ⟨j, p, q, a1, a2, a3, a4⟩
        cases j with
        | zero => left; simp at a1; subst a1; simp at a4; simp [flipPixel, a2, a3, a4]
        | succ j => right; exact ⟨j, p, q, by simpa using a1, a2, a3, by rw [List.take_succ_cons, ← key p q a2 a3] at a4; exact a4⟩

end Sys2Proof.Machine
end

