-- ==== Sys2Proof/Laws/Memory.lean ====
section
/-! SUPPORT. Memory: reads after writes, the canonical form, bounds (20_memory.md R50 to R56). -/

namespace Sys2Proof.Machine

/-! ### one byte -/

theorem Memory.read_insert (m : Memory) (a k : Nat) (b : Byte) :
    Memory.read (Memory.insert m a b) k = if k = a then b else Memory.read m k := by
  induction m with
  | nil => simp [Memory.insert, Memory.read]
  | cons c rest ih =>
    obtain ⟨a', b'⟩ := c
    simp only [Memory.insert]
    split
    · simp [Memory.read]
    · split
      · subst_vars
        simp only [Memory.read]
        split <;> simp_all
      · simp only [Memory.read, ih]
        grind

theorem Memory.read_erase (m : Memory) (a k : Nat) :
    Memory.read (Memory.erase m a) k = if k = a then Memory.blank else Memory.read m k := by
  induction m with
  | nil => simp [Memory.erase, Memory.read]
  | cons c rest ih =>
    obtain ⟨a', b'⟩ := c
    simp only [Memory.erase, List.filter_cons] at ih ⊢
    split
    · simp only [Memory.read, ih]
      grind
    · simp only [Memory.read, ih]
      grind

/-- A read after a write gives the value written there, and the old value elsewhere. -/
theorem Memory.read_write (m : Memory) (a k : Nat) (b : Byte) :
    Memory.read (Memory.write m a b) k = if k = a then b else Memory.read m k := by
  unfold Memory.write
  split
  · subst_vars
    exact Memory.read_erase m a k
  · exact Memory.read_insert m a k b

/-- The addresses a write lists are the old ones and the one written. -/
theorem Memory.mem_write {m : Memory} {a : Nat} {b : Byte} {c : Host.Cell} (h : c ∈ Memory.write m a b) :
    c ∈ m ∨ c = (a, b) := by
  unfold Memory.write at h
  split at h
  · exact .inl (List.mem_of_mem_filter h)
  · induction m with
    | nil => simpa [Memory.insert] using h
    | cons d rest ih =>
      simp only [Memory.insert] at h
      grind

theorem Memory.insert_wf {m : Memory} (h : Memory.wf m) (a : Nat) {b : Byte} (hb : b ≠ Memory.blank) :
    Memory.wf (Memory.insert m a b) := by
  induction m with
  | nil => simpa [Memory.wf, Memory.insert] using hb
  | cons d rest ih =>
    obtain ⟨hs, hne⟩ := h
    rw [List.pairwise_cons] at hs
    have hrest : Memory.wf (Memory.insert rest a b) := ih ⟨hs.2, fun c hc => hne c (by simp [hc])⟩
    have hd : d.2 ≠ Memory.blank := hne d (by simp)
    have hin : ∀ c ∈ Memory.insert rest a b, c ∈ rest ∨ c = (a, b) := fun c hc =>
      Memory.mem_write (by simpa [Memory.write, hb] using hc)
    simp only [Memory.insert]
    split
    · refine ⟨List.pairwise_cons.2 ⟨?_, List.pairwise_cons.2 hs⟩, ?_⟩ <;> grind
    · split
      · refine ⟨List.pairwise_cons.2 ⟨?_, hs.2⟩, ?_⟩ <;> grind
      · refine ⟨List.pairwise_cons.2 ⟨?_, hrest.1⟩, ?_⟩
        · intro c hc
          rcases hin c hc with hc | rfl
          · exact hs.1 c hc
          · simp only; omega
        · intro c hc
          rcases List.mem_cons.1 hc with rfl | hc
          · exact hd
          · exact hrest.2 c hc

/-- A write keeps the canonical form. -/
theorem Memory.write_wf {m : Memory} (h : Memory.wf m) (a : Nat) (b : Byte) : Memory.wf (Memory.write m a b) := by
  unfold Memory.write
  split
  · exact ⟨h.1.filter _, fun c hc => h.2 c (List.mem_of_mem_filter hc)⟩
  · exact Memory.insert_wf h a ‹_›

/-! ### several bytes -/

@[simp] theorem Memory.readMany_length (m : Memory) (a n : Nat) : (Memory.readMany m a n).length = n := by
  induction n generalizing a with
  | zero => rfl
  | succ n ih => simp [Memory.readMany, ih]

theorem Memory.readMany_get (m : Memory) (a n k : Nat) (h : k < n) :
    (Memory.readMany m a n)[k]? = some (Memory.read m (a + k)) := by
  induction n generalizing a k with
  | zero => omega
  | succ n ih =>
    cases k with
    | zero => simp [Memory.readMany]
    | succ k => simp [Memory.readMany, ih (a + 1) k (by omega)]; congr 1; omega

theorem Memory.read_writeMany (m : Memory) (a k : Nat) (bytes : List Byte) :
    Memory.read (Memory.writeMany m a bytes) k =
      if a ≤ k ∧ k < a + bytes.length then bytes.getD (k - a) 0 else Memory.read m k := by
  induction bytes generalizing m a with
  | nil => simp [Memory.writeMany]
  | cons b bs ih =>
    simp only [Memory.writeMany, ih, Memory.read_write, List.length_cons]
    by_cases hk : k = a
    · subst hk
      simp
    · by_cases hlt : a < k
      · obtain ⟨j, rfl⟩ : ∃ j, k = a + 1 + j := ⟨k - (a + 1), by omega⟩
        simp only [show a + 1 + j - (a + 1) = j by omega, show a + 1 + j - a = j + 1 by omega, List.getD_cons_succ]
        split <;> split <;> first | rfl | omega
      · rw [if_neg (by omega), if_neg hk, if_neg (by omega)]

theorem Memory.writeMany_wf {m : Memory} (h : Memory.wf m) (a : Nat) (bytes : List Byte) :
    Memory.wf (Memory.writeMany m a bytes) := by
  induction bytes generalizing m a with
  | nil => exact h
  | cons b bs ih => exact ih (Memory.write_wf h a b) (a + 1)

theorem Memory.mem_writeMany {m : Memory} {a : Nat} {bytes : List Byte} {c : Host.Cell}
    (h : c ∈ Memory.writeMany m a bytes) : c ∈ m ∨ (a ≤ c.1 ∧ c.1 < a + bytes.length) := by
  induction bytes generalizing m a with
  | nil => exact .inl h
  | cons b bs ih =>
    rcases ih h with h | h
    · rcases Memory.mem_write h with h | rfl
      · exact .inl h
      · right; simp
    · right; simp only [List.length_cons]; omega

/-! ### bounds -/

/-- No address is out of range exactly when the access is empty or ends inside memory. -/
theorem firstOut_eq_none {size a n : Nat} : firstOut size a n = none ↔ n = 0 ∨ a + n ≤ size := by
  induction n generalizing a with
  | zero => simp [firstOut]
  | succ n ih => simp only [firstOut]; split <;> simp [ih] <;> omega

/-- The address reported is in the access, out of range, and the least such. -/
theorem firstOut_eq_some {size a n b : Nat} :
    firstOut size a n = some b ↔ a ≤ b ∧ b < a + n ∧ size ≤ b ∧ ∀ c, a ≤ c → c < b → c < size := by
  induction n generalizing a with
  | zero => simp [firstOut]; omega
  | succ n ih =>
    simp only [firstOut]
    split
    · simp only [Option.some.injEq]
      constructor
      · rintro rfl; exact ⟨le_refl _, by omega, ‹_›, by omega⟩
      · rintro ⟨h1, h2, h3, h4⟩
        by_contra hne
        have := h4 a le_rfl (by omega)
        omega
    · rw [ih]
      constructor
      · rintro ⟨h1, h2, h3, h4⟩
        refine ⟨by omega, by omega, h3, fun c hc hcb => ?_⟩
        by_cases hca : c = a
        · omega
        · exact h4 c (by omega) hcb
      · rintro ⟨h1, h2, h3, h4⟩
        refine ⟨?_, by omega, h3, fun c hc hcb => h4 c (by omega) hcb⟩
        by_contra hlt
        omega

/-! ### the machine's reads and writes: everything each can answer -/

theorem State.memRead_ok {s : State} {a n : Nat} {bytes : List Byte} (h : s.memRead a n = .ok bytes) :
    (n = 0 ∨ a + n ≤ s.cfg.memSize) ∧ bytes = Memory.readMany s.mem a n := by
  unfold State.memRead at h
  split at h <;> simp_all [firstOut_eq_none]

theorem State.memRead_inside {s : State} {a n : Nat} (h : n = 0 ∨ a + n ≤ s.cfg.memSize) :
    s.memRead a n = .ok (Memory.readMany s.mem a n) := by
  simp [State.memRead, firstOut_eq_none.2 h]

theorem State.memRead_outside {s : State} {a n b : Nat} (h : firstOut s.cfg.memSize a n = some b) :
    s.memRead a n = .error b := by
  simp [State.memRead, h]

theorem State.memRead_error {s : State} {a n b : Nat} (h : s.memRead a n = .error b) :
    firstOut s.cfg.memSize a n = some b := by
  unfold State.memRead at h
  split at h <;> simp_all

theorem State.memWrite_ok {s t : State} {a : Nat} {bytes : List Byte} (h : s.memWrite a bytes = .ok t) :
    (bytes.length = 0 ∨ a + bytes.length ≤ s.cfg.memSize) ∧ t = s.setMem (Memory.writeMany s.mem a bytes) := by
  unfold State.memWrite at h
  split at h
  · cases h
  · cases h
    exact ⟨firstOut_eq_none.1 ‹_›, rfl⟩

theorem State.memWrite_inside {s : State} {a : Nat} {bytes : List Byte}
    (h : bytes.length = 0 ∨ a + bytes.length ≤ s.cfg.memSize) :
    s.memWrite a bytes = .ok (s.setMem (Memory.writeMany s.mem a bytes)) := by
  simp [State.memWrite, firstOut_eq_none.2 h]

theorem State.memWrite_outside {s : State} {a b : Nat} {bytes : List Byte}
    (h : firstOut s.cfg.memSize a bytes.length = some b) : s.memWrite a bytes = .error b := by
  simp [State.memWrite, h]

theorem State.memWrite_error {s : State} {a b : Nat} {bytes : List Byte} (h : s.memWrite a bytes = .error b) :
    firstOut s.cfg.memSize a bytes.length = some b := by
  unfold State.memWrite at h
  split at h <;> simp_all

/-- A byte of the state after a write of several bytes. -/
theorem State.byteAt_setMem_writeMany (s : State) (a k : Nat) (bytes : List Byte) :
    (s.setMem (Memory.writeMany s.mem a bytes)).byteAt k =
      if a ≤ k ∧ k < a + bytes.length then bytes.getD (k - a) 0 else s.byteAt k :=
  Memory.read_writeMany s.mem a k bytes

/-- Every answer of the 16-bit read (R53). -/
theorem State.memRead16_cases (s : State) (a : Nat) :
    (s.cfg.memSize ≤ a ∧ s.memRead16 a = .error a) ∨
    (a + 1 = s.cfg.memSize ∧ s.memRead16 a = .error (a + 1)) ∨
    (a + 1 < s.cfg.memSize ∧ s.memRead16 a = .ok (wordOfBytes (s.byteAt a) (s.byteAt (a + 1)))) := by
  unfold State.memRead16
  split
  · exact .inl ⟨‹_›, rfl⟩
  · split
    · exact .inr (.inl ⟨by omega, rfl⟩)
    · exact .inr (.inr ⟨by omega, rfl⟩)

/-- The bytes `readMany` gives, through the model's read of one byte. -/
theorem State.readMany_eq_map (s : State) (a n : Nat) : Memory.readMany s.mem a n = (List.range n).map (fun k => s.byteAt (a + k)) := by
    apply List.ext_getElem?
    intro k
    by_cases hk : k < n
    · rw [Memory.readMany_get _ _ _ _ hk]; simp [hk, State.byteAt]
    · rw [List.getElem?_eq_none (by simp; omega), List.getElem?_eq_none (by simp; omega)]

end Sys2Proof.Machine
end

