-- ==== Sys2Proof/Laws/Operands.lean ====
section
/-! SUPPORT. The shared operand, flag and skip operations, each said once. -/

namespace Sys2Proof.Machine

/-! ### write2 (42_alu.md R151) -/

/-- Every register after `write2`; the order shows only when the destination is `VF`. -/
theorem State.reg_write2 (s : State) (x q : Reg) (res : Byte) (flag last : Bool) :
    (s.write2 x res flag last).reg q =
      if x = Reg.vF ∧ q = Reg.vF then (if last then flagByte flag else res)
      else if q = x then res else if q = Reg.vF then flagByte flag else s.reg q := by
  cases last <;> simp only [State.write2, State.reg_writeReg, Bool.false_eq_true, if_false, if_true] <;> grind

@[simp] theorem State.write2_i (s : State) (x : Reg) (res : Byte) (flag last : Bool) :
    (s.write2 x res flag last).i = s.i := by cases last <;> rfl
@[simp] theorem State.write2_pc (s : State) (x : Reg) (res : Byte) (flag last : Bool) :
    (s.write2 x res flag last).pc = s.pc := by cases last <;> rfl
@[simp] theorem State.write2_stack (s : State) (x : Reg) (res : Byte) (flag last : Bool) :
    (s.write2 x res flag last).stack = s.stack := by cases last <;> rfl
@[simp] theorem State.write2_dt (s : State) (x : Reg) (res : Byte) (flag last : Bool) :
    (s.write2 x res flag last).dt = s.dt := by cases last <;> rfl
@[simp] theorem State.write2_st (s : State) (x : Reg) (res : Byte) (flag last : Bool) :
    (s.write2 x res flag last).st = s.st := by cases last <;> rfl
@[simp] theorem State.write2_acc (s : State) (x : Reg) (res : Byte) (flag last : Bool) :
    (s.write2 x res flag last).acc = s.acc := by cases last <;> rfl
@[simp] theorem State.write2_fb (s : State) (x : Reg) (res : Byte) (flag last : Bool) :
    (s.write2 x res flag last).fb = s.fb := by cases last <;> rfl
@[simp] theorem State.write2_mode (s : State) (x : Reg) (res : Byte) (flag last : Bool) :
    (s.write2 x res flag last).mode = s.mode := by cases last <;> rfl
@[simp] theorem State.write2_mem (s : State) (x : Reg) (res : Byte) (flag last : Bool) :
    (s.write2 x res flag last).mem = s.mem := by cases last <;> rfl
@[simp] theorem State.write2_cfg (s : State) (x : Reg) (res : Byte) (flag last : Bool) :
    (s.write2 x res flag last).cfg = s.cfg := by cases last <;> rfl
@[simp] theorem State.write2_pending (s : State) (x : Reg) (res : Byte) (flag last : Bool) :
    (s.write2 x res flag last).pending = s.pending := by cases last <;> rfl
@[simp] theorem State.write2_input (s : State) (x : Reg) (res : Byte) (flag last : Bool) :
    (s.write2 x res flag last).input = s.input := by cases last <;> rfl
@[simp] theorem State.write2_hostDraws (s : State) (x : Reg) (res : Byte) (flag last : Bool) :
    (s.write2 x res flag last).hostDraws = s.hostDraws := by cases last <;> rfl
@[simp] theorem State.write2_byteAt (s : State) (x : Reg) (res : Byte) (flag last : Bool) (k : Nat) :
    (s.write2 x res flag last).byteAt k = s.byteAt k := by cases last <;> rfl

/-! ### bumpI (43_index_memory.md R194, R195) -/

@[simp] theorem State.bumpI_v (s : State) (x : Reg) : (s.bumpI x).v = s.v := by
  unfold State.bumpI; split <;> rfl
@[simp] theorem State.bumpI_pc (s : State) (x : Reg) : (s.bumpI x).pc = s.pc := by
  unfold State.bumpI; split <;> rfl
@[simp] theorem State.bumpI_stack (s : State) (x : Reg) : (s.bumpI x).stack = s.stack := by
  unfold State.bumpI; split <;> rfl
@[simp] theorem State.bumpI_dt (s : State) (x : Reg) : (s.bumpI x).dt = s.dt := by
  unfold State.bumpI; split <;> rfl
@[simp] theorem State.bumpI_st (s : State) (x : Reg) : (s.bumpI x).st = s.st := by
  unfold State.bumpI; split <;> rfl
@[simp] theorem State.bumpI_acc (s : State) (x : Reg) : (s.bumpI x).acc = s.acc := by
  unfold State.bumpI; split <;> rfl
@[simp] theorem State.bumpI_fb (s : State) (x : Reg) : (s.bumpI x).fb = s.fb := by
  unfold State.bumpI; split <;> rfl
@[simp] theorem State.bumpI_mode (s : State) (x : Reg) : (s.bumpI x).mode = s.mode := by
  unfold State.bumpI; split <;> rfl
@[simp] theorem State.bumpI_mem (s : State) (x : Reg) : (s.bumpI x).mem = s.mem := by
  unfold State.bumpI; split <;> rfl
@[simp] theorem State.bumpI_cfg (s : State) (x : Reg) : (s.bumpI x).cfg = s.cfg := by
  unfold State.bumpI; split <;> rfl
@[simp] theorem State.bumpI_pending (s : State) (x : Reg) : (s.bumpI x).pending = s.pending := by
  unfold State.bumpI; split <;> rfl
@[simp] theorem State.bumpI_input (s : State) (x : Reg) : (s.bumpI x).input = s.input := by
  unfold State.bumpI; split <;> rfl
@[simp] theorem State.bumpI_hostDraws (s : State) (x : Reg) : (s.bumpI x).hostDraws = s.hostDraws := by
  unfold State.bumpI; split <;> rfl
@[simp] theorem State.bumpI_reg (s : State) (x q : Reg) : (s.bumpI x).reg q = s.reg q := by
  unfold State.bumpI; split <;> rfl
@[simp] theorem State.bumpI_byteAt (s : State) (x : Reg) (k : Nat) : (s.bumpI x).byteAt k = s.byteAt k := by
  unfold State.bumpI; split <;> rfl
theorem State.bumpI_i (s : State) (x : Reg) :
    (s.bumpI x).i = if s.cfg.loadStoreIncrementsI then BitVec.ofNat 16 (s.i.toNat + x.val + 1) else s.i := by
  unfold State.bumpI; split <;> rfl

/-! ### skipIf (10_state.md R26) -/

@[simp] theorem State.skipIf_v (s : State) (b : Bool) : (s.skipIf b).v = s.v := by cases b <;> rfl
@[simp] theorem State.skipIf_i (s : State) (b : Bool) : (s.skipIf b).i = s.i := by cases b <;> rfl
@[simp] theorem State.skipIf_stack (s : State) (b : Bool) : (s.skipIf b).stack = s.stack := by cases b <;> rfl
@[simp] theorem State.skipIf_dt (s : State) (b : Bool) : (s.skipIf b).dt = s.dt := by cases b <;> rfl
@[simp] theorem State.skipIf_st (s : State) (b : Bool) : (s.skipIf b).st = s.st := by cases b <;> rfl
@[simp] theorem State.skipIf_acc (s : State) (b : Bool) : (s.skipIf b).acc = s.acc := by cases b <;> rfl
@[simp] theorem State.skipIf_fb (s : State) (b : Bool) : (s.skipIf b).fb = s.fb := by cases b <;> rfl
@[simp] theorem State.skipIf_mode (s : State) (b : Bool) : (s.skipIf b).mode = s.mode := by cases b <;> rfl
@[simp] theorem State.skipIf_mem (s : State) (b : Bool) : (s.skipIf b).mem = s.mem := by cases b <;> rfl
@[simp] theorem State.skipIf_cfg (s : State) (b : Bool) : (s.skipIf b).cfg = s.cfg := by cases b <;> rfl
@[simp] theorem State.skipIf_pending (s : State) (b : Bool) : (s.skipIf b).pending = s.pending := by cases b <;> rfl
@[simp] theorem State.skipIf_input (s : State) (b : Bool) : (s.skipIf b).input = s.input := by cases b <;> rfl
@[simp] theorem State.skipIf_hostDraws (s : State) (b : Bool) : (s.skipIf b).hostDraws = s.hostDraws := by cases b <;> rfl
@[simp] theorem State.skipIf_reg (s : State) (b : Bool) (q : Reg) : (s.skipIf b).reg q = s.reg q := by cases b <;> rfl
@[simp] theorem State.skipIf_byteAt (s : State) (b : Bool) (k : Nat) : (s.skipIf b).byteAt k = s.byteAt k := by cases b <;> rfl
@[simp] theorem State.skipIf_pc (s : State) (b : Bool) : (s.skipIf b).pc = if b then s.pc + 2 else s.pc := by
  cases b <;> rfl

/-! ### loads and stores of register lists -/

/-- The register file after a load of consecutive registers (R195). -/
theorem loadRegs_get (v : Vector Byte 16) (k : Nat) (bytes : List Byte) (q : Reg) :
    (loadRegs v k bytes).get q = if k ≤ q.val ∧ q.val < k + bytes.length then bytes.getD (q.val - k) 0 else v.get q := by
  induction bytes generalizing v k with
  | nil => simp [loadRegs]
  | cons b bs ih =>
    rw [loadRegs, ih]
    simp only [Vector.get_eq_getElem, Vector.getElem_setIfInBounds, List.length_cons]
    by_cases hk : k = q.val
    · subst hk
      simp
    · by_cases hlt : k < q.val
      · obtain ⟨j, hj⟩ : ∃ j, q.val = k + 1 + j := ⟨q.val - (k + 1), by omega⟩
        simp only [hj, show k + 1 + j - (k + 1) = j by omega, show k + 1 + j - k = j + 1 by omega, List.getD_cons_succ]
        by_cases hj' : j < bs.length
        · rw [if_pos (by omega), if_pos (by omega)]
        · rw [if_neg (by omega), if_neg (by omega), if_neg (by omega)]
      · rw [if_neg (by omega), if_neg hk, if_neg (by omega)]

@[simp] theorem State.regsUpTo_length (s : State) (x : Reg) : (s.regsUpTo x).length = x.val + 1 := by
  simp [State.regsUpTo]

/-- The bytes LD [I], Vx stores are the registers in order (R194). -/
theorem State.regsUpTo_getD (s : State) (x r : Reg) (h : r ≤ x) : (s.regsUpTo x).getD r.val 0 = s.reg r := by
  have hr : r.val < x.val + 1 := by have := Fin.le_def.1 h; omega
  simp [State.regsUpTo, List.getD_eq_getElem?_getD, hr, State.reg, Vector.get_eq_getElem]

@[simp] theorem bcdDigits_length (d : Byte) : (bcdDigits d).length = 3 := rfl

/-! ### keys (44_timer_input.md R210, R214) -/

theorem keyOf_eq_some {v : Byte} {k : Key} : keyOf v = some k ↔ v.toNat = k.val := by
  unfold keyOf
  split
  · simp [Fin.ext_iff]
  · simp; omega

theorem keyOf_eq_none {v : Byte} : keyOf v = none ↔ 15 < v.toNat := by
  unfold keyOf
  split <;> simp <;> omega

/-- No key is chosen exactly when none was just pressed. -/
theorem chooseKey_eq_none {inp : StepInput} : chooseKey inp = none ↔ inp.just = [] := by
  rw [chooseKey, List.getElem?_eq_none_iff]
  constructor
  · intro h
    by_contra hne
    have := Nat.mod_lt inp.pick (List.length_pos_iff.2 hne)
    omega
  · intro h
    simp [h]

/-- A chosen key is one of those just pressed. -/
theorem chooseKey_mem {inp : StepInput} {k : Key} (h : chooseKey inp = some k) : k ∈ inp.just :=
  List.mem_of_getElem? h

/-- Every key just pressed can be the one chosen: it is for some draw of the host. -/
theorem chooseKey_every {inp : StepInput} {k : Key} (h : k ∈ inp.just) :
    ∃ n, chooseKey { inp with pick := n } = some k := by
  obtain ⟨n, hn, rfl⟩ := List.getElem_of_mem h
  exact ⟨n, by simp [chooseKey, Nat.mod_eq_of_lt hn]⟩

/-! ### sprite pixels (40_display.md R103) -/

theorem mem_setColumns {b : Byte} {c : Nat} : c ∈ setColumns b ↔ c < 8 ∧ b.getLsbD (7 - c) = true := by
  simp [setColumns]

/-- The pixels of a sprite as a list: row by row, and in a row its set columns in order. -/
theorem spritePixels_eq_flatMap (c : Config) (x0 y0 : Nat) (rows : List Byte) :
    spritePixels c x0 y0 rows = (List.range rows.length).flatMap (fun r =>
      (setColumns (rows.getD r 0)).map (fun col => place c (x0 + col) (y0 + r))) := by
  induction rows generalizing y0 with
  | nil => rfl
  | cons b rest ih =>
    simp [spritePixels, ih, List.range_succ_eq_map, List.flatMap_map, Nat.add_comm 1, Nat.add_assoc]

/-- The pixels a sprite names: one for each set bit of each row. -/
theorem mem_spritePixels {c : Config} {x0 y0 : Nat} {rows : List Byte} {p : Nat × Nat} :
    p ∈ spritePixels c x0 y0 rows ↔
      ∃ r col, r < rows.length ∧ col < 8 ∧ (rows.getD r 0).getLsbD (7 - col) = true ∧ p = place c (x0 + col) (y0 + r) := by
  induction rows generalizing y0 with
  | nil => simp [spritePixels]
  | cons b rest ih =>
    simp only [spritePixels, List.mem_append, List.mem_map, mem_setColumns, ih, List.length_cons]
    constructor
    · rintro (⟨col, ⟨hc, hb⟩, rfl⟩ | ⟨r, col, hr, hc, hb, rfl⟩)
      · exact ⟨0, col, by omega, hc, by simpa using hb, by simp⟩
      · exact ⟨r + 1, col, by omega, hc, by simpa using hb, by rw [show y0 + 1 + r = y0 + (r + 1) by omega]⟩
    · rintro ⟨r, col, hr, hc, hb, rfl⟩
      cases r with
      | zero => exact .inl ⟨col, ⟨hc, by simpa using hb⟩, by simp⟩
      | succ r =>
        exact .inr ⟨r, col, by omega, hc, by simpa using hb, by rw [show y0 + 1 + r = y0 + (r + 1) by omega]⟩

end Sys2Proof.Machine
end

