-- ==== Sys2Proof/Laws/PerInstr.lean ====
section
/-! SUPPORT. Per instruction: decoding its encoding gives it back, with every operand at every value. -/

namespace Sys2Proof.Laws.RoundTrip

/-- The word of `i` decodes to `i`. -/
def Statement (i : Instr) : Prop := decode (encode i) = .instr i

theorem cls : Statement .cls := rfl
theorem ret : Statement .ret := rfl
theorem jp (nnn : BitVec 12) : Statement (.jp nnn) := by simp [Statement, encode, decode]
theorem call (nnn : BitVec 12) : Statement (.call nnn) := by simp [Statement, encode, decode]
theorem seByte (x : Reg) (nn : Byte) : Statement (.seByte x nn) := by simp [Statement, encode, decode]
theorem sneByte (x : Reg) (nn : Byte) : Statement (.sneByte x nn) := by simp [Statement, encode, decode]
theorem seReg (x y : Reg) : Statement (.seReg x y) := by simp [Statement, encode, decode]
theorem sneReg (x y : Reg) : Statement (.sneReg x y) := by simp [Statement, encode, decode]
theorem ldByte (x : Reg) (nn : Byte) : Statement (.ldByte x nn) := by simp [Statement, encode, decode]
theorem addByte (x : Reg) (nn : Byte) : Statement (.addByte x nn) := by simp [Statement, encode, decode]
theorem ldReg (x y : Reg) : Statement (.ldReg x y) := by simp [Statement, encode, decode, decodeGroup8]
theorem orReg (x y : Reg) : Statement (.orReg x y) := by simp [Statement, encode, decode, decodeGroup8]
theorem andReg (x y : Reg) : Statement (.andReg x y) := by simp [Statement, encode, decode, decodeGroup8]
theorem xorReg (x y : Reg) : Statement (.xorReg x y) := by simp [Statement, encode, decode, decodeGroup8]
theorem addReg (x y : Reg) : Statement (.addReg x y) := by simp [Statement, encode, decode, decodeGroup8]
theorem sub (x y : Reg) : Statement (.sub x y) := by simp [Statement, encode, decode, decodeGroup8]
theorem subn (x y : Reg) : Statement (.subn x y) := by simp [Statement, encode, decode, decodeGroup8]
theorem shr (x y : Reg) : Statement (.shr x y) := by simp [Statement, encode, decode, decodeGroup8]
theorem shl (x y : Reg) : Statement (.shl x y) := by simp [Statement, encode, decode, decodeGroup8]
theorem ldI (nnn : BitVec 12) : Statement (.ldI nnn) := by simp [Statement, encode, decode]
theorem jpV0 (nnn : BitVec 12) : Statement (.jpV0 nnn) := by simp [Statement, encode, decode]
theorem drw (x y : Reg) (n : BitVec 4) : Statement (.drw x y n) := by simp [Statement, encode, decode]
theorem rnd (x : Reg) (nn : Byte) : Statement (.rnd x nn) := by simp [Statement, encode, decode]
theorem skp (x : Reg) : Statement (.skp x) := by simp [Statement, encode, decode, decodeGroupE]
theorem sknp (x : Reg) : Statement (.sknp x) := by simp [Statement, encode, decode, decodeGroupE]
theorem ldVxDt (x : Reg) : Statement (.ldVxDt x) := by simp [Statement, encode, decode, decodeGroupF]
theorem ldVxK (x : Reg) : Statement (.ldVxK x) := by simp [Statement, encode, decode, decodeGroupF]
theorem ldDtVx (x : Reg) : Statement (.ldDtVx x) := by simp [Statement, encode, decode, decodeGroupF]
theorem ldStVx (x : Reg) : Statement (.ldStVx x) := by simp [Statement, encode, decode, decodeGroupF]
theorem addI (x : Reg) : Statement (.addI x) := by simp [Statement, encode, decode, decodeGroupF]
theorem ldBVx (x : Reg) : Statement (.ldBVx x) := by simp [Statement, encode, decode, decodeGroupF]
theorem ldMemVx (x : Reg) : Statement (.ldMemVx x) := by simp [Statement, encode, decode, decodeGroupF]
theorem ldVxMem (x : Reg) : Statement (.ldVxMem x) := by simp [Statement, encode, decode, decodeGroupF]

end Sys2Proof.Laws.RoundTrip
end

