-- ==== Sys2Proof/Laws/Timer.lean ====
section
/-! SUPPORT. The timer tick, field by field (60_exceptions.md R241). -/

namespace Sys2Proof.Machine

@[simp] theorem tick_v (e : Nat) (s : State) : (tick e s).v = s.v := by unfold tick; split <;> rfl
@[simp] theorem tick_i (e : Nat) (s : State) : (tick e s).i = s.i := by unfold tick; split <;> rfl
@[simp] theorem tick_pc (e : Nat) (s : State) : (tick e s).pc = s.pc := by unfold tick; split <;> rfl
@[simp] theorem tick_stack (e : Nat) (s : State) : (tick e s).stack = s.stack := by unfold tick; split <;> rfl
@[simp] theorem tick_fb (e : Nat) (s : State) : (tick e s).fb = s.fb := by unfold tick; split <;> rfl
@[simp] theorem tick_mode (e : Nat) (s : State) : (tick e s).mode = s.mode := by unfold tick; split <;> rfl
@[simp] theorem tick_mem (e : Nat) (s : State) : (tick e s).mem = s.mem := by unfold tick; split <;> rfl
@[simp] theorem tick_cfg (e : Nat) (s : State) : (tick e s).cfg = s.cfg := by unfold tick; split <;> rfl
@[simp] theorem tick_pending (e : Nat) (s : State) : (tick e s).pending = s.pending := by unfold tick; split <;> rfl
@[simp] theorem tick_input (e : Nat) (s : State) : (tick e s).input = s.input := by unfold tick; split <;> rfl
@[simp] theorem tick_hostDraws (e : Nat) (s : State) : (tick e s).hostDraws = s.hostDraws := by unfold tick; split <;> rfl

/-- One tick: whether the threshold is reached, and every field it writes. -/
theorem tick_cases (e : Nat) (s : State) :
    (s.cfg.clockHz ≤ s.acc + s.cfg.timerHz * e ∧ (tick e s).acc + s.cfg.clockHz = s.acc + s.cfg.timerHz * e ∧
      (tick e s).dt = countDown s.dt ∧ (tick e s).st = countDown s.st) ∨
    (s.acc + s.cfg.timerHz * e < s.cfg.clockHz ∧ (tick e s).acc = s.acc + s.cfg.timerHz * e ∧
      (tick e s).dt = s.dt ∧ (tick e s).st = s.st) := by
  unfold tick
  split
  · refine .inl ⟨‹_›, ?_, rfl, rfl⟩
    simp only [State.setSt_acc, State.setDt_acc, State.setAcc_acc]
    omega
  · exact .inr ⟨by omega, rfl, rfl, rfl⟩

/-- A counter goes down by one, never below zero. -/
theorem countDown_toNat (c : Byte) : (countDown c).toNat = c.toNat - 1 := by
  unfold countDown
  split
  · simp [*]
  · rename_i h
    have : c.toNat ≠ 0 := fun h0 => h (BitVec.eq_of_toNat_eq (by simpa using h0))
    have h1 : (1 : Byte).toNat = 1 := rfl
    rw [BitVec.toNat_sub, h1]
    have := c.isLt
    omega

@[simp] theorem tickAll_v (es : List Nat) (s : State) : (tickAll es s).v = s.v := by
  induction es generalizing s with
  | nil => rfl
  | cons e es ih => simp [tickAll, ih]
@[simp] theorem tickAll_i (es : List Nat) (s : State) : (tickAll es s).i = s.i := by
  induction es generalizing s with
  | nil => rfl
  | cons e es ih => simp [tickAll, ih]
@[simp] theorem tickAll_pc (es : List Nat) (s : State) : (tickAll es s).pc = s.pc := by
  induction es generalizing s with
  | nil => rfl
  | cons e es ih => simp [tickAll, ih]
@[simp] theorem tickAll_stack (es : List Nat) (s : State) : (tickAll es s).stack = s.stack := by
  induction es generalizing s with
  | nil => rfl
  | cons e es ih => simp [tickAll, ih]
@[simp] theorem tickAll_fb (es : List Nat) (s : State) : (tickAll es s).fb = s.fb := by
  induction es generalizing s with
  | nil => rfl
  | cons e es ih => simp [tickAll, ih]
@[simp] theorem tickAll_mode (es : List Nat) (s : State) : (tickAll es s).mode = s.mode := by
  induction es generalizing s with
  | nil => rfl
  | cons e es ih => simp [tickAll, ih]
@[simp] theorem tickAll_mem (es : List Nat) (s : State) : (tickAll es s).mem = s.mem := by
  induction es generalizing s with
  | nil => rfl
  | cons e es ih => simp [tickAll, ih]
@[simp] theorem tickAll_cfg (es : List Nat) (s : State) : (tickAll es s).cfg = s.cfg := by
  induction es generalizing s with
  | nil => rfl
  | cons e es ih => simp [tickAll, ih]
@[simp] theorem tickAll_pending (es : List Nat) (s : State) : (tickAll es s).pending = s.pending := by
  induction es generalizing s with
  | nil => rfl
  | cons e es ih => simp [tickAll, ih]
@[simp] theorem tickAll_input (es : List Nat) (s : State) : (tickAll es s).input = s.input := by
  induction es generalizing s with
  | nil => rfl
  | cons e es ih => simp [tickAll, ih]
@[simp] theorem tickAll_hostDraws (es : List Nat) (s : State) : (tickAll es s).hostDraws = s.hostDraws := by
  induction es generalizing s with
  | nil => rfl
  | cons e es ih => simp [tickAll, ih]

end Sys2Proof.Machine
end

