-- ==== Sys2Proof/Laws/Step.lean ====
section
/-! SUPPORT. What a step can do, said once, and induction along a run. -/

namespace Sys2Proof.Machine

/-- Taking a fatal error answers a next state in `HALTED`, with nothing else changed (00_scope.md R13). -/
theorem raise_haltedAt (k : ErrorKind) (a : Word) (s : State) : ∃ t, raise k a s = .next t ∧ HaltedAt s t k a :=
  ⟨_, rfl, rfl, rfl, by constructor <;> simp⟩

/-- What the host asks for next: the head of `pending`, or a step with free inputs after free ticks. -/
theorem nextRequest_cases (s : State) :
    (∃ act rest, s.pending = act :: rest ∧ s.nextRequest = (act, s.setPending rest)) ∨
    (s.pending = [] ∧ s.nextRequest =
      (.step (Config.freeInput s.hostDraws),
        (tickAll (Config.freeTicks s.hostDraws) s).setHostDraws (s.hostDraws + 1))) := by
  unfold State.nextRequest
  split
  · exact .inl ⟨_, _, ‹_›, rfl⟩
  · exact .inr ⟨‹_›, rfl⟩

/-- A queued tick is one tick. -/
theorem step_tick {s : State} {e : Nat} {rest : List HostAction} (h : s.pending = .tick e :: rest) :
    step s = .next (tick e (s.setPending rest)) := by
  simp [step, State.nextRequest, h, serve]

/-- A step the host asks for is an interpreter step in the state it is met in. -/
theorem step_asked {s t : State} {inp : StepInput} (h : s.Asked inp t) : step s = interpStep t := by
  obtain ⟨u, hu, rfl⟩ := h
  simp [step, hu, serve]

/-- Every step is a queued tick or an interpreter step. -/
theorem step_cases (s : State) :
    (∃ e rest, s.pending = .tick e :: rest ∧ step s = .next (tick e (s.setPending rest))) ∨
    (∃ inp t, s.Asked inp t ∧ step s = interpStep t) := by
  rcases nextRequest_cases s with ⟨act, rest, hp, hn⟩ | ⟨hp, hn⟩
  · cases act with
    | tick e => exact .inl ⟨e, rest, hp, step_tick hp⟩
    | step inp => exact .inr ⟨inp, _, ⟨_, hn, rfl⟩, step_asked ⟨_, hn, rfl⟩⟩
  · exact .inr ⟨_, _, ⟨_, hn, rfl⟩, step_asked ⟨_, hn, rfl⟩⟩

/-- The state a request is met in differs from the one before only in the timers and in the model's account of the host. -/
theorem Asked.frame {s t : State} {inp : StepInput} (h : s.Asked inp t) :
    t.v = s.v ∧ t.i = s.i ∧ t.pc = s.pc ∧ t.stack = s.stack ∧ t.fb = s.fb ∧ t.mode = s.mode ∧ t.mem = s.mem ∧
      t.cfg = s.cfg ∧ t.input = inp := by
  obtain ⟨u, hu, rfl⟩ := h
  rcases nextRequest_cases s with ⟨act, rest, hp, hn⟩ | ⟨hp, hn⟩
  · rw [hn] at hu
    cases hu
    simp
  · rw [hn] at hu
    cases hu
    simp

/-- One step in `RUNNING`: a fetch error, an unknown word, or the decoded instruction (30_encoding.md R80). -/
theorem stepRunning_cases (s : State) :
    (∃ a, s.memRead16 s.pc.toNat = .error a ∧ stepRunning s = raise (.outOfBounds a) s.pc s) ∨
    (∃ ins w, s.memRead16 s.pc.toNat = .ok ins ∧ decode ins = .unknown w ∧
      stepRunning s = raise (.unknownInstruction w) s.pc s) ∨
    (∃ ins i, s.memRead16 s.pc.toNat = .ok ins ∧ decode ins = .instr i ∧ stepRunning s = exec i s.advance) := by
  unfold stepRunning
  split
  · exact .inl ⟨_, ‹_›, rfl⟩
  · split
    · exact .inr (.inl ⟨_, _, ‹_›, ‹_›, rfl⟩)
    · exact .inr (.inr ⟨_, _, ‹_›, ‹_›, rfl⟩)

/-- What holds of a state and is kept by every step holds of every state reached from it. -/
theorem Reach.kept {P : State → Prop} (keep : ∀ {t u : State}, P t → step t = .next u → P u) {s t : State} (hs : P s)
    (h : Reach s t) : P t := by
  induction h with
  | here => exact hs
  | next _ h' ih => exact keep ih h'

/-- A run of `k + 1` steps whose first step answers a next state. -/
theorem run_succ {s t : State} (h : step s = .next t) (k : Nat) :
    Host.Core.run Sys2Proof.core (k + 1) s = Host.Core.run Sys2Proof.core k t := by
  simp only [Host.Core.run]
  rw [show Sys2Proof.core.step s = .next t from h]

end Sys2Proof.Machine
end

