-- ==== Sys2Proof/Tests/Slice0.lean ====
section
/-! SUPPORT. Tests of one step each, with the expected results of 95_test_vectors.md (the vector's id is in the docstring), decode
tests written out from 30_encoding.md R85, the smoke test of the construction checks, and a witness for every obligation that
has hypotheses. -/

namespace Sys2Proof.Tests

open Sys2Proof.Machine

/-! ## Helpers -/

/-- The start state of TV0, with the `CLOCK_HZ` of TV17. -/
def start : State := { State.reset with cfg := Config.tobinioV7 600 }

/-- `s` with registers set. -/
def regs (l : List (Reg × Byte)) (s : State) : State := l.foldl (fun s p => s.writeReg p.1 p.2) s

/-- `s` with bytes stored from `a` on. -/
def bytes (a : Nat) (l : List Byte) (s : State) : State := s.setMem (Memory.writeMany s.mem a l)

/-- `s` with another parameter setting. -/
def params (f : Config → Config) (s : State) : State := { s with cfg := f s.cfg }

/-- `s` with `w` at `PC` and the host about to ask for a step with inputs `inp`. -/
def ready (w : Word) (inp : StepInput) (s : State) : State :=
  (bytes s.pc.toNat (bytesOfWord w) s).setPending [.step inp]

/-- One step with `w` at `PC`. -/
def stepOn (w : Word) (s : State) (inp : StepInput := StepInput.idle) : Result := step (ready w inp s)

/-- `just = {k}`, nothing held. -/
def pressed (k : Key) : StepInput := { StepInput.idle with just := [k] }

/-- `held = {k}`, nothing just pressed. -/
def holding (k : Key) : StepInput := { StepInput.idle with held := StepInput.idle.held.set k.val true k.isLt }

/-- `rnd = b` -/
def random (b : Byte) : StepInput := { StepInput.idle with rnd := b }

/-- The outcome is a next state with property `p`. -/
def after (r : Result) (p : State → Bool) : Bool :=
  match r with
  | .next t => p t
  | .fault _ => false
  | .refused _ => false

/-- The outcome is `HALTED((k, a))` with `PC = a`. -/
def haltsWith (r : Result) (k : ErrorKind) (a : Word) : Bool := after r (fun t => t.mode == .halted ⟨k, a⟩ && t.pc == a)

/-- The pixels set in a framebuffer, row by row. -/
def lit (f : Framebuffer) : List (Nat × Nat) :=
  (f.zipIdx.map (fun row => (row.1.zipIdx.filter (·.1)).map (fun px => (px.2, row.2)))).flatten

/-! ## Smoke test: each check of construction refuses an ill-formed term (00_scope.md R7, R9; 70_reset_and_hazards.md R272) -/

theorem test_legal_parameters : (Config.tobinioV7 600).wf = true := by decide
theorem test_refuses_no_room_at_load_base : { Config.tobinioV7 600 with memSize := 0x201 }.wf = false := by decide
theorem test_refuses_load_base_beyond_pc :
    { Config.tobinioV7 600 with memSize := 0x20000, loadBase := 0x10000 }.wf = false := by decide
theorem test_refuses_no_columns : { Config.tobinioV7 600 with fbW := 0 }.wf = false := by decide
theorem test_refuses_no_rows : { Config.tobinioV7 600 with fbH := 0 }.wf = false := by decide
theorem test_refuses_no_stack : { Config.tobinioV7 600 with stackCapacity := some 0 }.wf = false := by decide
theorem test_refuses_no_clock : (Config.tobinioV7 0).wf = false := by decide
/-- TV18: 3584 bytes fit, 3585 do not. -/
theorem test_image_size : (Config.tobinioV7 600).imageFits (List.replicate 3584 0) = true ∧
    (Config.tobinioV7 600).imageFits (List.replicate 3585 0) = false := by
  simp only [Config.imageFits, List.length_replicate]
  decide
/-- Ill-formed parameters and a byte string too short for a word are refused as a whole. -/
theorem test_refuses_ill_formed : State.construct { Config.tobinioV7 600 with fbW := 0 } (fun _ => 0) [] = none ∧
    decodeBytes [0x12] = .truncated := by decide

/-! ## Decode: words written out from the pattern column of R85, every constructor -/

theorem test_decode_display : decode 0b0000000011100000 = .instr .cls ∧ decode 0b1101000100100011 = .instr (.drw 1 2 3) := by
  decide
theorem test_decode_control : decode 0b0000000011101110 = .instr .ret ∧ decode 0b0001101010111100 = .instr (.jp 0xABC) ∧
    decode 0x2DEF = .instr (.call 0xDEF) ∧ decode 0x3142 = .instr (.seByte 1 0x42) ∧ decode 0x4F43 = .instr (.sneByte 15 0x43) ∧
    decode 0x5120 = .instr (.seReg 1 2) ∧ decode 0x9AB0 = .instr (.sneReg 10 11) ∧ decode 0xB310 = .instr (.jpV0 0x310) := by
  decide
theorem test_decode_alu : decode 0b0110101001000010 = .instr (.ldByte 10 0x42) ∧ decode 0x7102 = .instr (.addByte 1 2) ∧
    decode 0x8120 = .instr (.ldReg 1 2) ∧ decode 0x8341 = .instr (.orReg 3 4) ∧ decode 0x8562 = .instr (.andReg 5 6) ∧
    decode 0x8783 = .instr (.xorReg 7 8) ∧ decode 0x89A4 = .instr (.addReg 9 10) ∧ decode 0x8BC5 = .instr (.sub 11 12) ∧
    decode 0x8DE7 = .instr (.subn 13 14) ∧ decode 0x8F06 = .instr (.shr 15 0) ∧ decode 0x812E = .instr (.shl 1 2) ∧
    decode 0b1100000100001111 = .instr (.rnd 1 0x0F) := by decide
theorem test_decode_memory : decode 0b1010000100100011 = .instr (.ldI 0x123) ∧ decode 0xF11E = .instr (.addI 1) ∧
    decode 0xF033 = .instr (.ldBVx 0) ∧ decode 0xF255 = .instr (.ldMemVx 2) ∧ decode 0xFF65 = .instr (.ldVxMem 15) := by decide
theorem test_decode_keys : decode 0b1110000110011110 = .instr (.skp 1) ∧ decode 0xE1A1 = .instr (.sknp 1) ∧
    decode 0xF307 = .instr (.ldVxDt 3) ∧ decode 0xF30A = .instr (.ldVxK 3) ∧ decode 0xF115 = .instr (.ldDtVx 1) ∧
    decode 0xF218 = .instr (.ldStVx 2) := by decide
/-- The unknown words of TV10. -/
theorem test_decode_unknown : [0x0000, 0x0123, 0x00E1, 0x00FF, 0x5121, 0x8008, 0x800F, 0x9001, 0xE09F, 0xF029, 0xFFFF].map decode =
    [0x0000, 0x0123, 0x00E1, 0x00FF, 0x5121, 0x8008, 0x800F, 0x9001, 0xE09F, 0xF029, 0xFFFF].map Decoded.unknown := by decide
/-- The decoder on a table row's bits, and the very next step after reset running such a word. -/
theorem test_table_word : decodeTableWord 16 0x6A42 = some (.ldByte 10 0x42) ∧ decodeTableWord 16 0x5121 = none ∧
    after (step (State.reset.withFetchWord 16 0x6A42)) (fun t => t.reg 10 == 0x42 && t.pc == 0x202) = true := by decide

/-! ## Fetch (TV10) -/

/-- E1 -/
theorem test_unknown_halts : haltsWith (stepOn 0x0000 start) (.unknownInstruction 0x0000) 0x200 = true := by decide
/-- E12 -/
theorem test_odd_pc : after (stepOn 0x6042 (start.setPc 0x201)) (fun t => t.reg 0 == 0x42 && t.pc == 0x203) = true := by decide
/-- E13 -/
theorem test_fetch_out_of_bounds : haltsWith (stepOn 0x0000 (start.setPc 0xFFF)) (.outOfBounds 0x1000) 0xFFF = true := by decide
/-- E14 -/
theorem test_pc_past_memory : after (stepOn 0x6042 (start.setPc 0xFFE)) (fun t => t.reg 0 == 0x42 && t.pc == 0x1000) = true := by
  decide

/-! ## Display (TV11) -/

/-- D1 -/
theorem test_cls : after (stepOn 0x00E0 (start.setFb (flipAll 64 32 start.fb [(0, 0), (63, 31)]).1))
    (fun t => lit t.fb == [] && t.pc == 0x202) = true := by decide
/-- The 2 x 2 sprite of D7 to D9 at the bottom-right corner. -/
def corner (p : SpriteWrap) : State :=
  params (fun c => { c with spriteWrap := p }) (bytes 0x300 [0xC0, 0xC0] (regs [(0, 0x3F), (1, 0x1F)] (start.setI 0x300)))
/-- D5, D11, D12 -/
theorem test_drw : after (stepOn 0xD011 (bytes 0x300 [0xC0] ((start.setI 0x300).setFb (flipAll 64 32 start.fb [(1, 0)]).1)))
      (fun t => lit t.fb == [(0, 0)] && t.reg 15 == 0x01) = true ∧
    after (stepOn 0xDF01 (bytes 0x300 [0x80] (regs [(15, 0x05)] (start.setI 0x300))))
      (fun t => lit t.fb == [(5, 0)] && t.reg 15 == 0x00) = true ∧
    haltsWith (stepOn 0xD013 (start.setI 0xFFE)) (.outOfBounds 0x1000) 0x200 = true := by decide
/-- D7, D8, D9 -/
theorem test_drw_policies : after (stepOn 0xD012 (corner .wrapXClipY)) (fun t => lit t.fb == [(0, 31), (63, 31)]) = true ∧
    after (stepOn 0xD012 (corner .clipXY)) (fun t => lit t.fb == [(63, 31)]) = true ∧
    after (stepOn 0xD012 (corner .wrapXY)) (fun t => lit t.fb == [(0, 0), (63, 0), (0, 31), (63, 31)]) = true := by decide

/-! ## Control transfer (TV12) -/

/-- C5, C7 -/
theorem test_ret : after (stepOn 0x00EE (start.setStack [0x206, 0x400])) (fun t => t.stack == [0x400] && t.pc == 0x206) = true := by
  decide
theorem test_ret_underflow : haltsWith (stepOn 0x00EE start) .stackUnderflow 0x200 = true := by decide
/-- C1 -/
theorem test_jp : after (stepOn 0x1ABC start) (fun t => t.pc == 0xABC) = true := by decide
/-- C4 -/
theorem test_call : after (stepOn 0x2300 (start.setStack [0x400])) (fun t => t.stack == [0x202, 0x400] && t.pc == 0x300) = true := by
  decide
/-- C8 -/
theorem test_call_overflow : haltsWith (stepOn 0x2300 (params (fun c => { c with stackCapacity := some 1 }) (start.setStack [0x400])))
    .stackOverflow 0x200 = true := by decide
/-- C9, C10 -/
theorem test_se_byte : after (stepOn 0x3142 (regs [(1, 0x42)] start)) (fun t => t.pc == 0x204) = true ∧
    after (stepOn 0x3143 (regs [(1, 0x42)] start)) (fun t => t.pc == 0x202) = true := by decide
/-- C11, C12 -/
theorem test_sne_byte : after (stepOn 0x4143 (regs [(1, 0x42)] start)) (fun t => t.pc == 0x204) = true ∧
    after (stepOn 0x4142 (regs [(1, 0x42)] start)) (fun t => t.pc == 0x202) = true := by decide
/-- C13, C14 -/
theorem test_se_reg : after (stepOn 0x5120 (regs [(1, 0x07), (2, 0x07)] start)) (fun t => t.pc == 0x204) = true ∧
    after (stepOn 0x5120 (regs [(1, 0x07), (2, 0x08)] start)) (fun t => t.pc == 0x202) = true := by decide
/-- C16, C17 -/
theorem test_sne_reg : after (stepOn 0x9120 (regs [(1, 0x07), (2, 0x08)] start)) (fun t => t.pc == 0x204) = true ∧
    after (stepOn 0x9110 (regs [(1, 0x07)] start)) (fun t => t.pc == 0x202) = true := by decide
/-- C20 -/
theorem test_jp_v0 : after (stepOn 0xBFFF (regs [(0, 0xFF)] start)) (fun t => t.pc == 0x10FE) = true := by decide
/-- C21 -/
theorem test_jp_vx : after (stepOn 0xB310 (params (fun c => { c with jumpOffsetReg := .offVx }) (regs [(0, 0x10), (3, 0x05)] start)))
    (fun t => t.pc == 0x315) = true := by decide

/-! ## Register and arithmetic (TV13) -/

/-- A1 -/
theorem test_ld_byte : after (stepOn 0x6A42 start) (fun t => t.reg 10 == 0x42 && t.pc == 0x202) = true := by decide
/-- A3 -/
theorem test_add_byte : after (stepOn 0x7102 (regs [(1, 0xFF), (15, 0xAA)] start)) (fun t => t.reg 1 == 0x01 && t.reg 15 == 0xAA) = true := by
  decide
/-- A6 -/
theorem test_ld_reg : after (stepOn 0x8120 (regs [(1, 0x12), (2, 0x34)] start)) (fun t => t.reg 1 == 0x34) = true := by decide
/-- A7 -/
theorem test_or : after (stepOn 0x8121 (regs [(1, 0xF0), (2, 0x0F), (15, 0xAA)] start)) (fun t => t.reg 1 == 0xFF && t.reg 15 == 0xAA) = true := by
  decide
/-- A8 -/
theorem test_and : after (stepOn 0x8122 (regs [(1, 0xF0), (2, 0x3C), (15, 0xAA)] start)) (fun t => t.reg 1 == 0x30 && t.reg 15 == 0xAA) = true := by
  decide
/-- A9 -/
theorem test_xor : after (stepOn 0x8123 (regs [(1, 0xF0), (2, 0x3C), (15, 0xAA)] start)) (fun t => t.reg 1 == 0xCC && t.reg 15 == 0xAA) = true := by
  decide
/-- A11, A12 -/
theorem test_add_reg : after (stepOn 0x8124 (regs [(1, 0xFF), (2, 0x01)] start)) (fun t => t.reg 1 == 0x00 && t.reg 15 == 0x01) = true ∧
    after (stepOn 0x8124 (regs [(1, 0xFE), (2, 0x01), (15, 0xAA)] start)) (fun t => t.reg 1 == 0xFF && t.reg 15 == 0x00) = true := by
  decide
/-- A14, A15 -/
theorem test_add_to_vf : after (stepOn 0x8F14 (regs [(1, 0x01), (15, 0xFF)] start)) (fun t => t.reg 15 == 0x01) = true ∧
    after (stepOn 0x8F14 (params (fun c => { c with arithFlagLast := false }) (regs [(1, 0x01), (15, 0xFF)] start)))
      (fun t => t.reg 15 == 0x00) = true := by decide
/-- A17, A19 -/
theorem test_sub : after (stepOn 0x8125 (regs [(1, 0x01), (2, 0x02), (15, 0xAA)] start)) (fun t => t.reg 1 == 0xFF && t.reg 15 == 0x00) = true ∧
    after (stepOn 0x8125 (regs [(1, 0x05), (2, 0x05)] start)) (fun t => t.reg 1 == 0x00 && t.reg 15 == 0x01) = true := by decide
/-- A20, A21 -/
theorem test_subn : after (stepOn 0x8127 (regs [(1, 0x02), (2, 0x01)] start)) (fun t => t.reg 1 == 0xFF && t.reg 15 == 0x00) = true ∧
    after (stepOn 0x8127 (regs [(1, 0x01), (2, 0x02)] start)) (fun t => t.reg 1 == 0x01 && t.reg 15 == 0x01) = true := by decide
/-- A24, A25 -/
theorem test_shr : after (stepOn 0x8126 (regs [(1, 0xAA), (2, 0x03)] start)) (fun t => t.reg 1 == 0x01 && t.reg 15 == 0x01) = true ∧
    after (stepOn 0x8126 (params (fun c => { c with shiftSource := .srcVx }) (regs [(1, 0xAA), (2, 0x03)] start)))
      (fun t => t.reg 1 == 0x55 && t.reg 15 == 0x00) = true := by decide
/-- A30, A31 -/
theorem test_shr_to_vf : after (stepOn 0x8F16 (regs [(1, 0x02)] start)) (fun t => t.reg 15 == 0x01) = true ∧
    after (stepOn 0x8F16 (params (fun c => { c with shiftFlagLast := true }) (regs [(1, 0x02)] start))) (fun t => t.reg 15 == 0x00) = true := by
  decide
/-- A27, A29 -/
theorem test_shl : after (stepOn 0x812E (regs [(2, 0x81)] start)) (fun t => t.reg 1 == 0x02 && t.reg 15 == 0x01) = true ∧
    after (stepOn 0x812E (params (fun c => { c with shiftSource := .srcVx }) (regs [(1, 0x81), (2, 0x40)] start)))
      (fun t => t.reg 1 == 0x02 && t.reg 15 == 0x01) = true := by decide
/-- A34 -/
theorem test_rnd : after (stepOn 0xC10F start (random 0xAB)) (fun t => t.reg 1 == 0x0B) = true := by decide

/-! ## Index register and memory (TV14) -/

/-- M2 -/
theorem test_ld_i : after (stepOn 0xAFFF (start.setI 0xFFFF)) (fun t => t.i == 0xFFF) = true := by decide
/-- M4 -/
theorem test_add_i : after (stepOn 0xF11E (regs [(1, 0xFF)] (start.setI 0xFF00))) (fun t => t.i == 0xFFFF && t.reg 15 == 0x00) = true := by
  decide
/-- M5 -/
theorem test_add_i_overflow : haltsWith (stepOn 0xF11E (regs [(1, 0x20)] (start.setI 0xFFF0))) .indexOverflow 0x200 = true := by decide
/-- M7 -/
theorem test_ld_b : after (stepOn 0xF033 (regs [(0, 0xFE)] (start.setI 0x300)))
    (fun t => Memory.readMany t.mem 0x300 3 == [0x02, 0x05, 0x04]) = true := by decide
/-- M12 -/
theorem test_ld_b_out_of_bounds : haltsWith (stepOn 0xF033 (regs [(0, 0xFE)] (start.setI 0xFFE))) (.outOfBounds 0x1000) 0x200 = true := by
  decide
/-- M13, M14 -/
theorem test_store : after (stepOn 0xF255 (regs [(0, 1), (1, 2), (2, 3), (3, 4)] (start.setI 0x300)))
      (fun t => Memory.readMany t.mem 0x300 4 == [1, 2, 3, 0] && t.i == 0x300) = true ∧
    after (stepOn 0xF255 (params (fun c => { c with loadStoreIncrementsI := true }) (regs [(0, 1), (1, 2), (2, 3)] (start.setI 0x300))))
      (fun t => Memory.readMany t.mem 0x300 3 == [1, 2, 3] && t.i == 0x303) = true := by decide
/-- M17 -/
theorem test_store_out_of_bounds : haltsWith (stepOn 0xFF55 (regs [(0, 1)] (start.setI 0xFF1))) (.outOfBounds 0x1000) 0x200 = true := by
  decide
/-- M18, M19 -/
theorem test_load : after (stepOn 0xF265 (bytes 0x300 [2, 5, 4, 9] (start.setI 0x300)))
      (fun t => t.v.toList.take 4 == [2, 5, 4, 0] && t.i == 0x300) = true ∧
    after (stepOn 0xF265 (params (fun c => { c with loadStoreIncrementsI := true }) (bytes 0x300 [2, 5, 4] (start.setI 0x300))))
      (fun t => t.v.toList.take 3 == [2, 5, 4] && t.i == 0x303) = true := by decide
/-- M21 -/
theorem test_load_out_of_bounds : haltsWith (stepOn 0xF265 (regs [(0, 0x55)] (start.setI 0xFFE))) (.outOfBounds 0x1000) 0x200 = true ∧
    after (stepOn 0xF265 (regs [(0, 0x55)] (start.setI 0xFFE))) (fun t => t.reg 0 == 0x55) = true := by decide

/-! ## Keys and timers (TV15, TV17) -/

/-- K1, K3 -/
theorem test_skp : after (stepOn 0xE19E (regs [(1, 5)] start) (holding 5)) (fun t => t.pc == 0x204) = true ∧
    after (stepOn 0xE19E (regs [(1, 5)] start) (pressed 5)) (fun t => t.pc == 0x202) = true := by decide
/-- K6 -/
theorem test_skp_out_of_range : haltsWith (stepOn 0xE19E (regs [(1, 0x10)] start)) (.keyOutOfRange 0x10) 0x200 = true := by decide
/-- K4, K8 -/
theorem test_sknp : after (stepOn 0xE1A1 (regs [(1, 5)] start)) (fun t => t.pc == 0x204) = true ∧
    after (stepOn 0xE1A1 (regs [(1, 15)] start) (holding 15)) (fun t => t.pc == 0x202) = true := by decide
/-- K9 -/
theorem test_ld_vx_dt : after (stepOn 0xF307 (start.setDt 0x3C)) (fun t => t.reg 3 == 0x3C && t.dt == 0x3C) = true := by decide
/-- K10 -/
theorem test_ld_dt_vx : after (stepOn 0xF115 (regs [(1, 0x10)] start)) (fun t => t.dt == 0x10 && t.st == 0x00) = true := by decide
/-- K11 -/
theorem test_ld_st_vx : after (stepOn 0xF218 (regs [(2, 0x05)] (start.setSt 0x09))) (fun t => t.st == 0x05 && t.dt == 0x00) = true := by
  decide
/-- K13, K14 -/
theorem test_ld_vx_k : after (stepOn 0xF30A start (holding 5)) (fun t => t.mode == .waiting 3 && t.pc == 0x200) = true ∧
    after (stepOn 0xF30A start (pressed 7)) (fun t => t.mode == .running && t.reg 3 == 0x07 && t.pc == 0x202) = true := by decide
/-- K15, K16 -/
theorem test_waiting : after (stepOn 0xF30A (start.setMode (.waiting 3))) (fun t => t.mode == .waiting 3 && t.pc == 0x200) = true ∧
    after (stepOn 0xF30A (start.setMode (.waiting 3)) (pressed 10)) (fun t => t.mode == .running && t.reg 3 == 0x0A && t.pc == 0x202) = true := by
  decide
/-- T3, first and second tick -/
theorem test_tick : (tick 25 ((start.setDt 5).setSt 2)).acc = 900 ∧ (tick 25 ((start.setDt 5).setSt 2)).dt = 4 ∧
    (tick 0 (tick 25 ((start.setDt 5).setSt 2))).acc = 300 ∧ (tick 0 (tick 25 ((start.setDt 5).setSt 2))).st = 0 := by decide
/-- T8: a tick in `HALTED`. -/
theorem test_tick_halted : after (step (((start.setDt 2).setMode (.halted ⟨.stackUnderflow, 0x200⟩)).setPending [.tick 10]))
    (fun t => t.dt == 1 && t.acc == 0) = true := by decide

/-! ## Witnesses: for every obligation with hypotheses, concrete states and operands that meet them, clause by clause -/

/-- The state meets the hypotheses of the statements over `Inv`. -/
theorem start_inv : start.Inv where
  cfg_wf := by decide
  mem_wf := by decide
  mem_in := by decide
  fb_rows := by decide
  fb_cols := by decide
  stack_cap := by intro n h; cases h
  waiting_pc := by intro x h; cases h
  halted_pc := by intro e h; cases h

/-- `start` waiting at an LD V3, K, with `inp` the inputs of the next step. -/
def waitingAt (inp : StepInput) : State := (ready 0xF30A inp start).setMode (.waiting 3)

theorem waiting_inv : (waitingAt StepInput.idle).Inv where
  cfg_wf := by decide
  mem_wf := by decide
  mem_in := by decide
  fb_rows := by decide
  fb_cols := by decide
  stack_cap := by intro n h; cases h
  waiting_pc := by intro x h; cases h; exact ⟨0xF30A, by decide, by decide⟩
  halted_pc := by intro e h; cases h

/-- A halted state with one tick queued. -/
def haltedState : State := (start.setMode (.halted ⟨.stackUnderflow, 0x200⟩)).setPending [.tick 10]

/-- `start` with a sprite row of one pixel at 0x300. -/
def spriteState : State := bytes 0x300 [0x80] (start.setI 0x300)

theorem sprite_inv : spriteState.Inv where
  cfg_wf := by decide
  mem_wf := by decide
  mem_in := by decide
  fb_rows := by decide
  fb_cols := by decide
  stack_cap := by intro n h; cases h
  waiting_pc := by intro x h; cases h
  halted_pc := by intro e h; cases h

/-- `start` as an instruction meets it, after the fetch at 0x200. -/
def fetched : State := start.setPc 0x202

theorem witness_DecodeFollowsTheOpcodeMap : decode 0x812E = .instr (.shl 1 2) ∧ decode 0x8128 = .unknown 0x8128 := by decide
theorem witness_StepRunsTheDecodedInstruction_queued :
    (ready 0x6A42 StepInput.idle (start.setPc 0xFFE)).mode = .running ∧ (0xFFE : Word).toNat + 1 < start.cfg.memSize ∧
    decode (wordOfBytes ((ready 0x6A42 StepInput.idle (start.setPc 0xFFE)).byteAt 0xFFE)
      ((ready 0x6A42 StepInput.idle (start.setPc 0xFFE)).byteAt 0xFFF)) = .instr (.ldByte 10 0x42) ∧
    (ready 0x6A42 StepInput.idle (start.setPc 0xFFE)).pending = [.step StepInput.idle] := by decide
theorem witness_StepRunsTheDecodedInstruction_free :
    decode (wordOfBytes ((bytes 0x200 [0x6A, 0x42] start).byteAt 0x200) ((bytes 0x200 [0x6A, 0x42] start).byteAt 0x201)) =
      .instr (.ldByte 10 0x42) ∧
    (bytes 0x200 [0x6A, 0x42] start).pending = [] ∧ (bytes 0x200 [0x6A, 0x42] start).mode = .running := by decide
theorem witness_PlacedWordRunsNext : (start.setPc 0xFFE).pc.toNat + 1 < (start.setPc 0xFFE).cfg.memSize := by decide
theorem witness_UnknownWordHalts : ∃ t, (ready 0x5121 StepInput.idle start).Asked StepInput.idle t ∧
    (ready 0x5121 StepInput.idle start).mode = .running ∧
    (ready 0x5121 StepInput.idle start).memRead16 0x200 = .ok 0x5121 ∧ decode 0x5121 = .unknown 0x5121 :=
  ⟨_, ⟨_, rfl, rfl⟩, rfl, by decide, by decide⟩
theorem witness_FetchBeyondMemoryHalts :
    (∃ t, ((start.setPc 0x1000).setPending [.step StepInput.idle]).Asked StepInput.idle t ∧
      (start.setPc 0x1000).mode = .running ∧ start.cfg.memSize ≤ (0x1000 : Word).toNat) ∧
    (∃ t, ((start.setPc 0xFFF).setPending [.step StepInput.idle]).Asked StepInput.idle t ∧
      (start.setPc 0xFFF).mode = .running ∧ (0xFFF : Word).toNat + 1 = start.cfg.memSize) :=
  ⟨⟨_, ⟨_, rfl, rfl⟩, rfl, by decide⟩, ⟨_, ⟨_, rfl, rfl⟩, rfl, by decide⟩⟩
theorem witness_WaitingPollsTheKeys :
    (∃ t, (waitingAt StepInput.idle).Asked StepInput.idle t ∧ (waitingAt StepInput.idle).mode = .waiting 3 ∧ StepInput.idle.just = []) ∧
    (∃ t, (waitingAt (pressed 15)).Asked (pressed 15) t ∧ (waitingAt (pressed 15)).mode = .waiting 3 ∧ (pressed 15).just ≠ []) :=
  ⟨⟨_, ⟨_, rfl, rfl⟩, rfl, rfl⟩, ⟨_, ⟨_, rfl, rfl⟩, rfl, by decide⟩⟩
theorem witness_WaitingEqualsRetrying : (waitingAt StepInput.idle).Inv ∧ (waitingAt StepInput.idle).mode = .waiting 3 ∧
    ∀ e rest, (waitingAt StepInput.idle).pending ≠ .tick e :: rest := ⟨waiting_inv, rfl, by intro e rest h; cases h⟩
theorem witness_HaltedHasNoStep : haltedState.mode = .halted ⟨.stackUnderflow, 0x200⟩ ∧ haltedState.pending = [.tick 10] ∧
    ∀ n rest, (haltedState.setPending []).pending ≠ .tick n :: rest := ⟨rfl, rfl, by intro n rest h; cases h⟩
theorem witness_HaltedIsForEver : ∃ t, haltedState.mode = .halted ⟨.stackUnderflow, 0x200⟩ ∧ Reach haltedState t ∧ t ≠ haltedState :=
  ⟨tick 10 (haltedState.setPending []), rfl, .next .here (step_tick rfl), fun h => absurd (congrArg State.pending h) (by decide)⟩
theorem witness_FatalErrorsCommitNothing : ∃ t u, (ready 0x00EE StepInput.idle start).Asked StepInput.idle t ∧
    (ready 0x00EE StepInput.idle start).mode = .running ∧ step (ready 0x00EE StepInput.idle start) = .next u ∧
    u.mode = .halted ⟨.stackUnderflow, 0x200⟩ := ⟨_, _, ⟨_, rfl, rfl⟩, rfl, rfl, rfl⟩
/-- Each cause of each error: the instruction, run from `RUNNING`, ends in the record. -/
theorem witness_ErrorsHaveTheirCause :
    fetched.mode = .running ∧
    haltsWith (exec .ret fetched) .stackUnderflow 0x200 = true ∧
    haltsWith (exec (.call 0x300) (params (fun c => { c with stackCapacity := some 1 }) (fetched.setStack [0x400]))) .stackOverflow 0x200 = true ∧
    haltsWith (exec (.addI 1) (regs [(1, 0x20)] (fetched.setI 0xFFF0))) .indexOverflow 0x200 = true ∧
    haltsWith (exec (.skp 1) (regs [(1, 0x10)] fetched)) (.keyOutOfRange 0x10) 0x200 = true ∧
    haltsWith (exec (.sknp 1) (regs [(1, 0xFF)] fetched)) (.keyOutOfRange 0xFF) 0x200 = true := by decide
theorem witness_ErrorsHaveTheirCause_bounds :
    haltsWith (exec (.drw 0 0 3) (fetched.setI 0xFFE)) (.outOfBounds 0x1000) 0x200 = true ∧
    haltsWith (exec (.ldBVx 0) (fetched.setI 0xFFE)) (.outOfBounds 0x1000) 0x200 = true ∧
    haltsWith (exec (.ldMemVx 15) (fetched.setI 0xFF1)) (.outOfBounds 0x1000) 0x200 = true ∧
    haltsWith (exec (.ldVxMem 15) (fetched.setI 0xFF1)) (.outOfBounds 0x1000) 0x200 = true := by decide
theorem witness_StepKeepsTheInvariant : ∃ t, (waitingAt StepInput.idle).Inv ∧ step (waitingAt StepInput.idle) = .next t :=
  ⟨_, waiting_inv, rfl⟩
theorem witness_StepKeepsPcInRange : ∃ t, (waitingAt StepInput.idle).Inv ∧ (waitingAt StepInput.idle).PcBound ∧
    (waitingAt StepInput.idle).mode = .waiting 3 ∧
    (waitingAt StepInput.idle).memRead16 (waitingAt StepInput.idle).pc.toNat = .ok 0xF30A ∧
    step (waitingAt StepInput.idle) = .next t :=
  ⟨_, waiting_inv, ⟨by decide, (by intro a h; cases h), by decide⟩, rfl, by decide, rfl⟩
/-- The greatest `MEM_SIZE` the bound admits, and the greatest `A` fetched there. -/
theorem witness_StepKeepsPcInRange_edge :
    (params (fun c => { c with memSize := 0xFFFC }) (start.setPc 0xFFFA)).PcBound ∧
    (params (fun c => { c with memSize := 0xFFFC }) (start.setPc 0xFFFA)).memRead16 0xFFFA = .ok 0x0000 :=
  ⟨⟨by decide, (by intro a h; cases h), by decide⟩, by decide⟩
/-- Each clause: an instruction that changes that part. -/
theorem witness_OnlyNamedInstructionsWrite :
    after (exec (.call 0x300) fetched) (fun t => t.stack != fetched.stack) = true ∧
    after (exec (.ldDtVx 1) (regs [(1, 2)] fetched)) (fun t => t.dt != fetched.dt) = true ∧
    after (exec (.ldStVx 1) (regs [(1, 2)] fetched)) (fun t => t.st != fetched.st) = true ∧
    after (exec (.drw 0 0 1) (spriteState.setPc 0x202)) (fun t => t.fb != spriteState.fb) = true ∧
    after (exec (.ldVxMem 0) (params (fun c => { c with loadStoreIncrementsI := true }) fetched)) (fun t => t.i != fetched.i) = true ∧
    after (exec (.ldMemVx 1) (regs [(1, 2)] fetched)) (fun t => t.byteAt 1 != fetched.byteAt 1) = true := by decide
theorem witness_OnlyNamedRegistersChange : ∃ t, exec (.ldVxMem 14) fetched = .next t ∧ (15 : Reg) ∉ writtenRegs (.ldVxMem 14) :=
  ⟨_, rfl, by decide⟩
theorem witness_OnlyFourInstructionsReadInputs : ∃ t, readsInput (.drw 0 0 0) = false ∧ exec (.drw 0 0 0) fetched = .next t :=
  ⟨_, rfl, rfl⟩
theorem witness_InstructionsCannotSeeAccOrSt : ∃ t, exec (.ldVxDt 3) fetched = .next t ∧ ∀ x, Instr.ldVxDt 3 ≠ .ldStVx x :=
  ⟨_, rfl, by intro x h; cases h⟩
/-- The threshold is met exactly by 10 units of 1/600 s, and missed by 9. -/
theorem witness_TickFollowsItsRule : (start.setPending [.tick 10]).pending = [.tick 10] ∧
    start.cfg.clockHz ≤ start.acc + start.cfg.timerHz * 10 ∧ start.acc + start.cfg.timerHz * 9 < start.cfg.clockHz := by decide
theorem witness_SpacedTicksCountDown : (start.setPending [.tick 10, .tick 25]).pending = [10, 25].map HostAction.tick ++ [] ∧
    ∀ e ∈ [10, 25], start.cfg.clockHz ≤ start.cfg.timerHz * e := by decide
theorem witness_TicksLoseNoTime : (start.setPending [.tick 25, .tick 0]).pending = [25, 0].map HostAction.tick ++ [] := by decide
theorem witness_MemReadRule : (∀ k < 2, 0xFFE + k < start.cfg.memSize) ∧
    (start.cfg.memSize ≤ 0xFFE + 2 ∧ ∀ j < 2, 0xFFE + j < start.cfg.memSize) := by decide
theorem witness_MemWriteRule : (∀ k < [1#8, 2#8].length, 0xFFE + k < start.cfg.memSize) ∧
    (2 < [1#8, 2#8, 3#8].length ∧ start.cfg.memSize ≤ 0xFFE + 2 ∧ ∀ j < 2, 0xFFE + j < start.cfg.memSize) := by decide
theorem witness_CanonicalMemoriesAreEqual : Memory.wf [(1, 2#8), (4, 1#8)] ∧
    Memory.write (Memory.write [] 4 1) 1 2 = [(1, 2#8), (4, 1#8)] := by decide
theorem witness_FlipPixelRule : start.fb.length = 32 ∧ (∀ row ∈ start.fb, row.length = 64) ∧ (63 < 64 ∧ 31 < 32) ∧ ¬(64 < 64 ∧ 31 < 32) := by
  decide
/-- The 2 x 2 sprite of D7 to D9 at the bottom-right corner: each set bit once, under each policy, before clipping. -/
theorem witness_SpritePixelsArePlaced :
    63 = ((corner .wrapXClipY).reg 0).toNat % (corner .wrapXClipY).cfg.fbW ∧
    31 = ((corner .wrapXClipY).reg 1).toNat % (corner .wrapXClipY).cfg.fbH ∧
    drwPixels 0 1 [0xC0, 0xC0] (corner .wrapXClipY) = [(63, 31), (0, 31), (63, 32), (0, 32)] ∧
    drwPixels 0 1 [0xC0, 0xC0] (corner .clipXY) = [(63, 31), (64, 31), (63, 32), (64, 32)] ∧
    drwPixels 0 1 [0xC0, 0xC0] (corner .wrapXY) = [(63, 31), (0, 31), (63, 0), (0, 0)] := by decide
theorem witness_DrwXorsTheSprite : spriteState.Inv ∧ (∀ k < (1#4).toNat, spriteState.i.toNat + k < spriteState.cfg.memSize) ∧
    drwPixels 0 0 ((List.range (1#4).toNat).map (fun k => spriteState.byteAt (spriteState.i.toNat + k))) spriteState = [(0, 0)] :=
  ⟨sprite_inv, by decide, by decide⟩
theorem witness_DrwBeyondMemoryHalts : 2 < (3#4).toNat ∧ (start.setI 0xFFE).cfg.memSize ≤ (start.setI 0xFFE).i.toNat + 2 ∧
    ∀ j < 2, (start.setI 0xFFE).i.toNat + j < (start.setI 0xFFE).cfg.memSize := by decide
theorem witness_DrawingTwiceRestores : ∃ t, exec (.drw 0 0 1) spriteState = .next t ∧ t.reg 0 = spriteState.reg 0 ∧ t.reg Reg.vF = 0x00 ∧
    (0, 0) ∈ drwPixels 0 0 ((List.range (1#4).toNat).map (fun k => spriteState.byteAt (spriteState.i.toNat + k))) spriteState ∧
    0 < spriteState.cfg.fbW ∧ 0 < spriteState.cfg.fbH :=
  ⟨_, rfl, by decide, by decide, by decide, by decide, by decide⟩
theorem witness_RetPopsOrUnderflows : (fetched.setStack [0x206]).stack = 0x206 :: [] ∧ fetched.stack = [] := by decide
theorem witness_CallPushesOrOverflows : fetched.cfg.stackCapacity ≠ some fetched.stack.length ∧
    (params (fun c => { c with stackCapacity := some 1 }) (fetched.setStack [0x400])).cfg.stackCapacity =
      some (fetched.setStack [0x400]).stack.length := by decide
theorem witness_JpV0AddsTheOffset : fetched.cfg.jumpOffsetReg = .offV0 ∧
    (params (fun c => { c with jumpOffsetReg := .offVx }) fetched).cfg.jumpOffsetReg = .offVx ∧
    (15 : Reg).val = (0xFFF#12).toNat / 256 := by decide
theorem witness_AddWritesSumAndCarry : (1 : Reg) ≠ Reg.vF ∧ (15 : Reg) = Reg.vF ∧
    (0x00 : Byte) = BitVec.ofNat 8 (((regs [(1, 0xFF), (2, 0x01)] fetched).reg 1).toNat +
      ((regs [(1, 0xFF), (2, 0x01)] fetched).reg 2).toNat) := by
  decide
theorem witness_SubtractionsWriteDifferenceAndNotBorrow : (1 : Reg) ≠ Reg.vF ∧ (15 : Reg) = Reg.vF ∧
    (0xFF : Byte) = BitVec.ofInt 8 (((regs [(1, 0x01), (2, 0x02)] fetched).reg 1).toNat -
      ((regs [(1, 0x01), (2, 0x02)] fetched).reg 2).toNat : Int) := by decide
theorem witness_ShiftsMoveOneBit : fetched.cfg.shiftSource = .srcVy ∧
    (0x81 : Nat) = (if fetched.cfg.shiftSource = .srcVy then (regs [(2, 0x81)] fetched).reg 2 else 0).toNat := by decide
theorem witness_AddIAddsOrOverflows :
    (fetched.setI 0xFF00).i.toNat + ((regs [(1, 0xFF)] fetched).reg 1).toNat ≤ 0xFFFF ∧
    0xFFFF < (fetched.setI 0xFF01).i.toNat + ((regs [(1, 0xFF)] fetched).reg 1).toNat := by decide
theorem witness_LdBStoresTheDigits : (fetched.setI 0xFFD).i.toNat + 2 < fetched.cfg.memSize ∧
    (fetched.cfg.memSize ≤ (fetched.setI 0xFFE).i.toNat + 2 ∧ ∀ j < 2, (fetched.setI 0xFFE).i.toNat + j < fetched.cfg.memSize) := by decide
theorem witness_BcdDigitsMakeTheValue : ∃ t, exec (.ldBVx 0) (fetched.setI 0xFFD) = .next t ∧ t.mode = (fetched.setI 0xFFD).mode ∧
    (fetched.setI 0xFFD).live := ⟨_, rfl, rfl, by intro e h; cases h⟩
theorem witness_RegisterDumpStores : (fetched.setI 0xFF0).i.toNat + (15 : Reg).val < fetched.cfg.memSize ∧
    (15 ≤ (15 : Reg).val ∧ fetched.cfg.memSize ≤ (fetched.setI 0xFF1).i.toNat + 15 ∧
      ∀ j < 15, (fetched.setI 0xFF1).i.toNat + j < fetched.cfg.memSize) := by decide
/-- `I` far beyond memory: the first address is the bad one. -/
theorem witness_RegisterLoadLoads : (fetched.setI 0xFFF).i.toNat + (0 : Reg).val < fetched.cfg.memSize ∧
    (0 ≤ (3 : Reg).val ∧ fetched.cfg.memSize ≤ (fetched.setI 0xFFFF).i.toNat + 0 ∧
      ∀ j < 0, (fetched.setI 0xFFFF).i.toNat + j < fetched.cfg.memSize) := by decide
theorem witness_LoadUndoesStore : (fetched.setI 0xFF0).i.toNat + (15 : Reg).val < (fetched.setI 0xFF0).cfg.memSize := by decide
theorem witness_SkipsOnKeysQueryTheHeldState : ((regs [(1, 15)] fetched).reg 1).toNat = (15 : Key).val ∧
    15 < ((regs [(1, 16)] fetched).reg 1).toNat := by decide
theorem witness_LdVxKTakesAKeyOrWaits : fetched.input.just = [] ∧ (fetched.setInput (pressed 15)).input.just ≠ [] := by decide
theorem witness_EveryPressedKeyCanBeTaken : 15 ∈ (fetched.setInput { pressed 2 with just := [2, 15] }).input.just := by decide
theorem witness_TooLargeImageIsRefused : (Config.tobinioV7 600).memSize < (Config.tobinioV7 600).loadBase + (List.replicate 3585 0#8).length := by
  rw [List.length_replicate]
  decide
theorem witness_ConstructionEstablishesTheResetState : (Config.tobinioV7 600).wf = true ∧
    (Config.tobinioV7 600).loadBase + (List.replicate 3584 0#8).length ≤ (Config.tobinioV7 600).memSize := by
  rw [List.length_replicate]
  decide
theorem witness_SnapshotShowsRegistersAndPixels : start.Inv ∧ 63 < start.cfg.fbW ∧ 31 < start.cfg.fbH :=
  ⟨start_inv, by decide, by decide⟩

end Sys2Proof.Tests
end

section
/-! SUPPORT. The inversion of each instruction that can raise a fatal error: the error with its cause, or the state it completes in
(00_scope.md R13; 60_exceptions.md R230, R231). The cases exclude each other. -/

namespace Sys2Proof.Machine

/-- RET: an empty stack, or a pop (41_control.md R120). -/
theorem execRet_cases (s : State) :
    (s.stack = [] ∧ execRet s = raise .stackUnderflow s.instrAddr s) ∨
    (∃ a rest, s.stack = a :: rest ∧ execRet s = .next ((s.setStack rest).setPc a)) := by
  cases h : s.stack with
  | nil => exact .inl ⟨rfl, by simp [execRet, State.popReturn, h]⟩
  | cons a rest => exact .inr ⟨a, rest, rfl, by simp [execRet, State.popReturn, h]⟩

/-- CALL: a bounded full stack, or a push (41_control.md R122). -/
theorem execCall_cases (nnn : BitVec 12) (s : State) :
    (s.cfg.stackCapacity = some s.stack.length ∧ execCall nnn s = raise .stackOverflow s.instrAddr s) ∨
    (s.cfg.stackCapacity ≠ some s.stack.length ∧
      execCall nnn s = .next ((s.setStack (s.pc :: s.stack)).setPc (zext16 nnn))) := by
  by_cases h : s.cfg.stackCapacity = some s.stack.length
  · exact .inl ⟨h, by simp [execCall, State.pushReturn, h]⟩
  · exact .inr ⟨h, by simp [execCall, State.pushReturn, h]⟩

/-- ADD I: a sum beyond 16 bits, or the new index (43_index_memory.md R191). -/
theorem execAddI_cases (x : Reg) (s : State) :
    (0xFFFF < s.i.toNat + (s.reg x).toNat ∧ execAddI x s = raise .indexOverflow s.instrAddr s) ∨
    (s.i.toNat + (s.reg x).toNat ≤ 0xFFFF ∧
      execAddI x s = .next (s.setI (BitVec.ofNat 16 (s.i.toNat + (s.reg x).toNat)))) := by
  by_cases h : 0xFFFF < s.i.toNat + (s.reg x).toNat
  · exact .inl ⟨h, if_pos h⟩
  · exact .inr ⟨Nat.le_of_not_lt h, if_neg h⟩

/-- SKP: a register that names no key, or the skip by the held state (44_timer_input.md R211). -/
theorem execSkp_cases (x : Reg) (s : State) :
    (15 < (s.reg x).toNat ∧ execSkp x s = raise (.keyOutOfRange (s.reg x)) s.instrAddr s) ∨
    (∃ k : Key, (s.reg x).toNat = k.val ∧ execSkp x s = .next (s.skipIf (isHeld s.input k))) := by
  cases h : keyOf (s.reg x) with
  | none => exact .inl ⟨keyOf_eq_none.mp h, by simp [execSkp, h]⟩
  | some k => exact .inr ⟨k, keyOf_eq_some.mp h, by simp [execSkp, h]⟩

/-- SKNP: a register that names no key, or the skip by the held state (44_timer_input.md R212). -/
theorem execSknp_cases (x : Reg) (s : State) :
    (15 < (s.reg x).toNat ∧ execSknp x s = raise (.keyOutOfRange (s.reg x)) s.instrAddr s) ∨
    (∃ k : Key, (s.reg x).toNat = k.val ∧ execSknp x s = .next (s.skipIf (!isHeld s.input k))) := by
  cases h : keyOf (s.reg x) with
  | none => exact .inl ⟨keyOf_eq_none.mp h, by simp [execSknp, h]⟩
  | some k => exact .inr ⟨k, keyOf_eq_some.mp h, by simp [execSknp, h]⟩

/-- DRW: a sprite byte outside memory, or the drawing and its collision flag (40_display.md R103). -/
theorem execDrw_cases (x y : Reg) (n : BitVec 4) (s : State) :
    (∃ a, firstOut s.cfg.memSize s.i.toNat n.toNat = some a ∧ execDrw x y n s = raise (.outOfBounds a) s.instrAddr s) ∨
    (∃ drawn, drawn = flipAll s.cfg.fbW s.cfg.fbH s.fb (drwPixels x y (Memory.readMany s.mem s.i.toNat n.toNat) s) ∧
      (n.toNat = 0 ∨ s.i.toNat + n.toNat ≤ s.cfg.memSize) ∧
      execDrw x y n s = .next ((s.setFb drawn.1).writeReg Reg.vF (flagByte drawn.2))) := by
  cases h : s.memRead s.i.toNat n.toNat with
  | error a => exact .inl ⟨a, State.memRead_error h, by simp [execDrw, h]⟩
  | ok rows =>
    obtain ⟨hin, rfl⟩ := State.memRead_ok h
    exact .inr ⟨_, rfl, hin, by simp [execDrw, h]⟩

/-- LD B: a digit's address outside memory, or the three digits written (43_index_memory.md R192). -/
theorem execLdBVx_cases (x : Reg) (s : State) :
    (∃ a, firstOut s.cfg.memSize s.i.toNat 3 = some a ∧ execLdBVx x s = raise (.outOfBounds a) s.instrAddr s) ∨
    (s.i.toNat + 3 ≤ s.cfg.memSize ∧
      execLdBVx x s = .next (s.setMem (Memory.writeMany s.mem s.i.toNat (bcdDigits (s.reg x))))) := by
  cases h : s.memWrite s.i.toNat (bcdDigits (s.reg x)) with
  | error a => exact .inl ⟨a, State.memWrite_error h, by simp [execLdBVx, h]⟩
  | ok t =>
    obtain ⟨hin, rfl⟩ := State.memWrite_ok h
    exact .inr ⟨by simpa using hin, by simp [execLdBVx, h]⟩

/-- LD [I], Vx: an address outside memory, or the registers stored (43_index_memory.md R194). -/
theorem execLdMemVx_cases (x : Reg) (s : State) :
    (∃ a, firstOut s.cfg.memSize s.i.toNat (x.val + 1) = some a ∧ execLdMemVx x s = raise (.outOfBounds a) s.instrAddr s) ∨
    (s.i.toNat + x.val + 1 ≤ s.cfg.memSize ∧
      execLdMemVx x s = .next ((s.setMem (Memory.writeMany s.mem s.i.toNat (s.regsUpTo x))).bumpI x)) := by
  cases h : s.memWrite s.i.toNat (s.regsUpTo x) with
  | error a => exact .inl ⟨a, by simpa using State.memWrite_error h, by simp [execLdMemVx, h]⟩
  | ok t =>
    obtain ⟨hin, rfl⟩ := State.memWrite_ok h
    exact .inr ⟨by simpa [← Nat.add_assoc] using hin, by simp [execLdMemVx, h]⟩

/-- LD Vx, [I]: an address outside memory, or the registers loaded (43_index_memory.md R195). -/
theorem execLdVxMem_cases (x : Reg) (s : State) :
    (∃ a, firstOut s.cfg.memSize s.i.toNat (x.val + 1) = some a ∧ execLdVxMem x s = raise (.outOfBounds a) s.instrAddr s) ∨
    (s.i.toNat + x.val + 1 ≤ s.cfg.memSize ∧
      execLdVxMem x s = .next ((s.setV (loadRegs s.v 0 (Memory.readMany s.mem s.i.toNat (x.val + 1)))).bumpI x)) := by
  cases h : s.memRead s.i.toNat (x.val + 1) with
  | error a => exact .inl ⟨a, State.memRead_error h, by simp [execLdVxMem, h]⟩
  | ok bytes =>
    obtain ⟨hin, rfl⟩ := State.memRead_ok h
    exact .inr ⟨by simpa [← Nat.add_assoc] using hin, by simp [execLdVxMem, h]⟩

end Sys2Proof.Machine
end

section
/-! SUPPORT and PROOF. Fatal errors are precise (00_scope.md R13; 60_exceptions.md R230): an instruction, and the step around it,
either raises an error in the state as it found it, or completes and does not halt. -/

namespace Sys2Proof.Machine

/-- The outcome `r` of an instruction found in `s` at address `a`: an error raised in `s` itself, or a next state that keeps the mode
or waits for a key. -/
def Precise (s : State) (a : Word) (r : Result) : Prop :=
  (∃ k, r = raise k a s) ∨ ∃ t, r = .next t ∧ (t.mode = s.mode ∨ ∃ x, t.mode = .waiting x)

theorem Precise.of_raise {s : State} {a : Word} {r : Result} {k : ErrorKind} (h : r = raise k a s) : Precise s a r :=
  .inl ⟨k, h⟩

theorem Precise.of_mode {s t : State} {a : Word} {r : Result} (h : r = .next t) (hm : t.mode = s.mode) : Precise s a r :=
  .inr ⟨t, h, .inl hm⟩

/-- LD Vx, K never halts: it waits or takes a key (44_timer_input.md R215). -/
theorem execLdVxK_precise (x : Reg) (s : State) : Precise s s.instrAddr (execLdVxK x s) := by
  unfold execLdVxK
  split
  · exact .inr ⟨_, rfl, .inr ⟨x, rfl⟩⟩
  · exact .of_mode rfl rfl

/-- Every instruction raises its error at its own address in the state it found, or completes: the nine that can fail by their
inversions, LD Vx, K by its own, and the others have no failing branch. -/
theorem exec_precise (i : Instr) (s : State) : Precise s s.instrAddr (exec i s) := by
  cases i with
  | ret =>
    obtain ⟨-, h⟩ | ⟨a, rest, -, h⟩ := execRet_cases s
    · exact .of_raise h
    · exact .of_mode h rfl
  | call nnn =>
    obtain ⟨-, h⟩ | ⟨-, h⟩ := execCall_cases nnn s
    · exact .of_raise h
    · exact .of_mode h rfl
  | addI x =>
    obtain ⟨-, h⟩ | ⟨-, h⟩ := execAddI_cases x s
    · exact .of_raise h
    · exact .of_mode h rfl
  | skp x =>
    obtain ⟨-, h⟩ | ⟨k, -, h⟩ := execSkp_cases x s
    · exact .of_raise h
    · exact .of_mode h (s.skipIf_mode _)
  | sknp x =>
    obtain ⟨-, h⟩ | ⟨k, -, h⟩ := execSknp_cases x s
    · exact .of_raise h
    · exact .of_mode h (s.skipIf_mode _)
  | drw x y n =>
    obtain ⟨a, -, h⟩ | ⟨drawn, -, -, h⟩ := execDrw_cases x y n s
    · exact .of_raise h
    · exact .of_mode h rfl
  | ldBVx x =>
    obtain ⟨a, -, h⟩ | ⟨-, h⟩ := execLdBVx_cases x s
    · exact .of_raise h
    · exact .of_mode h rfl
  | ldMemVx x =>
    obtain ⟨a, -, h⟩ | ⟨-, h⟩ := execLdMemVx_cases x s
    · exact .of_raise h
    · exact .of_mode h (State.bumpI_mode _ x)
  | ldVxMem x =>
    obtain ⟨a, -, h⟩ | ⟨-, h⟩ := execLdVxMem_cases x s
    · exact .of_raise h
    · exact .of_mode h (State.bumpI_mode _ x)
  | ldVxK x => exact execLdVxK_precise x s
  | addReg | sub | subn | shr | shl => exact .of_mode rfl (State.write2_mode ..)
  | seByte | sneByte | seReg | sneReg => exact .of_mode rfl (State.skipIf_mode ..)
  | cls | jp | jpV0 | ldByte | addByte | ldReg | orReg | andReg | xorReg | ldI | rnd | ldVxDt | ldDtVx | ldStVx =>
    exact .of_mode rfl rfl

/-- The whole `RUNNING` step is precise at the address it fetches from: a fetch or decode error comes before the advance, and an
error of the instruction takes the advance back. -/
theorem stepRunning_precise (s : State) : Precise s s.pc (stepRunning s) := by
  obtain ⟨a, -, h⟩ | ⟨ins, w, -, -, h⟩ | ⟨ins, i, -, -, h⟩ := stepRunning_cases s
  · exact .of_raise h
  · exact .of_raise h
  · have haddr : s.advance.instrAddr = s.pc := by simp
    rw [h]
    obtain ⟨k, hk⟩ | hnext := exec_precise i s.advance
    · exact .of_raise (hk.trans (by rw [haddr]; rfl))
    · exact .inr hnext

/-- A precise outcome that halts a live machine is an error raised in the state as it was found. -/
theorem Precise.haltedAt {s u : State} {a : Word} {r : Result} {e : ErrorRecord} (h : Precise s a r) (hs : s.live)
    (hr : r = .next u) (hu : u.mode = .halted e) : e.addr = a ∧ HaltedAt s u e.kind a := by
  subst hr
  obtain ⟨k, hk⟩ | ⟨t, ht, hmode⟩ := h
  · obtain ⟨t, ht, hat⟩ := raise_haltedAt k a s
    cases hk.trans ht
    cases hat.1.symm.trans hu
    exact ⟨rfl, hat⟩
  · cases ht
    obtain hkept | ⟨x, hwait⟩ := hmode
    · exact absurd (hkept.symm.trans hu) (hs e)
    · cases hwait.symm.trans hu

/-- Settles O13: the step is an interpreter step in `RUNNING`, which is precise at the address it fetches from. -/
theorem fatalErrorsCommitNothing : Obligations.FatalErrorsCommitNothing := by
  unfold Obligations.FatalErrorsCommitNothing
  intro s t u inp e hask hmode hstep hu
  obtain ⟨-, -, hpc, -, -, htmode, -⟩ := Asked.frame hask
  have hrun : t.mode = .running := htmode.trans hmode
  have hstep' : stepRunning t = .next u := by
    rw [step_asked hask, interpStep, hrun] at hstep
    exact hstep
  have hlive : t.live := fun e' he' => by cases hrun.symm.trans he'
  rw [← hpc]
  exact (stepRunning_precise t).haltedAt hlive hstep' hu

end Sys2Proof.Machine
end

section
/-! SUPPORT. What each instruction may change (10_state.md R23, R26, R28 to R34), said once for all instructions: a frame per state
operation, the parts each instruction touches, and the one lemma that every outcome keeps the rest. -/

namespace Sys2Proof.Machine

/-! ### frames of the state operations -/

theorem State.writeReg_unchanged (s : State) (r : Reg) (b : Byte) : Unchanged { regs := [r] } s (s.writeReg r b) := by
  constructor <;> simp +contextual [State.reg_writeReg, eq_comm]

theorem State.write2_unchanged (s : State) (x : Reg) (res : Byte) (flag last : Bool) :
    Unchanged { regs := [x, Reg.vF] } s (s.write2 x res flag last) := by
  constructor <;> simp +contextual [State.reg_write2]

theorem State.setPc_unchanged (s : State) (w : Word) : Unchanged { pc := true } s (s.setPc w) := by
  constructor <;> simp

theorem State.skipIf_unchanged (s : State) (b : Bool) : Unchanged { pc := true } s (s.skipIf b) := by
  constructor <;> simp

/-- A write of several bytes touches their addresses only (20_memory.md R54). -/
theorem State.setMem_writeMany_unchanged (s : State) (a : Nat) (bytes : List Byte) :
    Unchanged { mem := (List.range bytes.length).map (a + ·) } s (s.setMem (Memory.writeMany s.mem a bytes)) := by
  constructor
  case mem =>
    intro k hk
    rw [State.byteAt_setMem_writeMany, if_neg]
    rintro ⟨hle, hlt⟩
    exact hk (List.mem_map.2 ⟨k - a, List.mem_range.2 (by omega), by omega⟩)
  all_goals simp

/-- A load of `V[0]` to `V[x]` touches no register above `x` (43_index_memory.md R195). -/
theorem loadRegs_get_above (v : Vector Byte 16) {bytes : List Byte} {x r : Reg} (hlen : bytes.length = x.val + 1)
    (hr : r ∉ (List.finRange 16).filter (fun q => decide (q ≤ x))) : (loadRegs v 0 bytes).get r = v.get r := by
  have hlt : x < r := by simpa using hr
  rw [loadRegs_get, if_neg]
  have := Fin.lt_def.1 hlt
  omega

/-! ### what an instruction touches -/

/-- The parts of the state that `i`, found in `s`, may change when it completes. -/
def touches (s : State) (i : Instr) : Touch :=
  match i with
  | .cls => { fb := true }
  | .ret | .call _ => { pc := true, stack := true }
  | .jp _ | .jpV0 _ | .seByte _ _ | .sneByte _ _ | .seReg _ _ | .sneReg _ _ | .skp _ | .sknp _ => { pc := true }
  | .ldByte _ _ | .addByte _ _ | .ldReg _ _ | .orReg _ _ | .andReg _ _ | .xorReg _ _ | .addReg _ _ | .sub _ _ | .subn _ _
  | .shr _ _ | .shl _ _ | .rnd _ _ | .ldVxDt _ => { regs := writtenRegs i }
  | .ldI _ | .addI _ => { i := true }
  | .drw _ _ _ => { regs := writtenRegs i, fb := true }
  | .ldVxK _ => { regs := writtenRegs i, pc := true, mode := true }
  | .ldDtVx _ => { dt := true }
  | .ldStVx _ => { st := true }
  | .ldBVx _ => { mem := (List.range 3).map (s.i.toNat + ·) }
  | .ldMemVx x => { mem := (List.range (x.val + 1)).map (s.i.toNat + ·), i := s.cfg.loadStoreIncrementsI }
  | .ldVxMem _ => { regs := writtenRegs i, i := s.cfg.loadStoreIncrementsI }

@[simp] theorem touches_regs (s : State) (i : Instr) : (touches s i).regs = writtenRegs i := by cases i <;> rfl

/-- The outcome is a fatal error of the instruction, or a next state that differs from `s` in the parts `w` at most. -/
def Framed (w : Touch) (s : State) (r : Result) : Prop :=
  (∃ k, r = raise k s.instrAddr s) ∨ ∃ t, r = .next t ∧ Unchanged w s t

theorem Framed.of_raise {w : Touch} {s : State} {r : Result} {k : ErrorKind} (h : r = raise k s.instrAddr s) : Framed w s r :=
  .inl ⟨k, h⟩

theorem Framed.of_next {w : Touch} {s t : State} {r : Result} (h : r = .next t) (hu : Unchanged w s t) : Framed w s r :=
  .inr ⟨t, h, hu⟩

/-- LD Vx, K waits with `PC` taken back, or writes the key (44_timer_input.md R215). -/
theorem execLdVxK_cases (x : Reg) (s : State) :
    (s.input.just = [] ∧ execLdVxK x s = .next ((s.setPc s.instrAddr).setMode (.waiting x))) ∨
    (∃ k ∈ s.input.just, execLdVxK x s = .next (s.writeReg x (keyByte k))) := by
  cases h : chooseKey s.input with
  | none => exact .inl ⟨chooseKey_eq_none.1 h, by simp [execLdVxK, h]⟩
  | some k => exact .inr ⟨k, chooseKey_mem h, by simp [execLdVxK, h]⟩

/-- Every instruction raises a fatal error, or completes and changes only what it touches: the nine that can fail by their inversions,
LD Vx, K by its own, and the others by the frame of their one write. -/
theorem exec_framed (i : Instr) (s : State) : Framed (touches s i) s (exec i s) := by
  cases i with
  | ret =>
    obtain ⟨-, h⟩ | ⟨a, rest, -, h⟩ := execRet_cases s
    · exact .of_raise h
    · exact .of_next h (by constructor <;> simp [touches])
  | call nnn =>
    obtain ⟨-, h⟩ | ⟨-, h⟩ := execCall_cases nnn s
    · exact .of_raise h
    · exact .of_next h (by constructor <;> simp [touches])
  | addI x =>
    obtain ⟨-, h⟩ | ⟨-, h⟩ := execAddI_cases x s
    · exact .of_raise h
    · exact .of_next h (by constructor <;> simp [touches])
  | skp x =>
    obtain ⟨-, h⟩ | ⟨k, -, h⟩ := execSkp_cases x s
    · exact .of_raise h
    · exact .of_next h (s.skipIf_unchanged _)
  | sknp x =>
    obtain ⟨-, h⟩ | ⟨k, -, h⟩ := execSknp_cases x s
    · exact .of_raise h
    · exact .of_next h (s.skipIf_unchanged _)
  | drw x y n =>
    obtain ⟨a, -, h⟩ | ⟨drawn, -, -, h⟩ := execDrw_cases x y n s
    · exact .of_raise h
    · exact .of_next h (by constructor <;> simp +contextual [touches, writtenRegs, State.reg_writeReg, eq_comm])
  | ldBVx x =>
    obtain ⟨a, -, h⟩ | ⟨-, h⟩ := execLdBVx_cases x s
    · exact .of_raise h
    · exact .of_next h (s.setMem_writeMany_unchanged s.i.toNat (bcdDigits (s.reg x)))
  | ldMemVx x =>
    obtain ⟨a, -, h⟩ | ⟨-, h⟩ := execLdMemVx_cases x s
    · exact .of_raise h
    · have hw := s.setMem_writeMany_unchanged s.i.toNat (s.regsUpTo x)
      exact .of_next h (by constructor <;> simp +contextual [touches, State.bumpI_i, hw.mem])
  | ldVxMem x =>
    obtain ⟨a, -, h⟩ | ⟨-, h⟩ := execLdVxMem_cases x s
    · exact .of_raise h
    · refine .of_next h ?_
      constructor
      case regs =>
        intro r hr
        rw [State.bumpI_reg]
        exact loadRegs_get_above s.v (Memory.readMany_length ..) hr
      all_goals simp +contextual [touches, State.bumpI_i]
  | ldVxK x =>
    obtain ⟨-, h⟩ | ⟨k, -, h⟩ := execLdVxK_cases x s
    · exact .of_next h (by constructor <;> simp [touches])
    · exact .of_next h (by constructor <;> simp +contextual [touches, writtenRegs, State.reg_writeReg, eq_comm])
  | addReg | sub | subn | shr | shl => exact .of_next rfl (State.write2_unchanged ..)
  | seByte | sneByte | seReg | sneReg => exact .of_next rfl (State.skipIf_unchanged ..)
  | jp | jpV0 => exact .of_next rfl (State.setPc_unchanged ..)
  | ldByte | addByte | ldReg | orReg | andReg | xorReg | rnd | ldVxDt => exact .of_next rfl (State.writeReg_unchanged ..)
  | cls | ldI | ldDtVx | ldStVx => exact .of_next rfl (by constructor <;> simp [touches])

/-- In the next state only what the instruction touches differs, and `PC` and `MODE` where it raises an error (00_scope.md R13). -/
theorem exec_unchanged {i : Instr} {s t : State} (h : exec i s = .next t) :
    Unchanged { touches s i with pc := true, mode := true } s t := by
  obtain ⟨k, hk⟩ | ⟨u, hu, hframe⟩ := exec_framed i s
  · cases h.symm.trans hk
    constructor <;> simp
  · cases h.symm.trans hu
    exact { hframe with pc := by simp, mode := by simp }

/-! ### which instructions touch a part, read off the table -/

theorem eq_of_touches_stack {s : State} {i : Instr} (h : (touches s i).stack = true) : i = .ret ∨ ∃ nnn, i = .call nnn := by
  cases i <;> simp_all [touches]

theorem eq_of_touches_dt {s : State} {i : Instr} (h : (touches s i).dt = true) : ∃ x, i = .ldDtVx x := by
  cases i <;> simp_all [touches]

theorem eq_of_touches_st {s : State} {i : Instr} (h : (touches s i).st = true) : ∃ x, i = .ldStVx x := by
  cases i <;> simp_all [touches]

theorem eq_of_touches_fb {s : State} {i : Instr} (h : (touches s i).fb = true) : i = .cls ∨ ∃ x y n, i = .drw x y n := by
  cases i <;> simp_all [touches]

theorem eq_of_touches_i {s : State} {i : Instr} (h : (touches s i).i = true) :
    (∃ nnn, i = .ldI nnn) ∨ (∃ x, i = .addI x) ∨
      (s.cfg.loadStoreIncrementsI = true ∧ ∃ x, i = .ldMemVx x ∨ i = .ldVxMem x) := by
  cases i <;> simp_all [touches]

theorem eq_of_touches_mem {s : State} {i : Instr} {a : Nat} (h : a ∈ (touches s i).mem) :
    ∃ x, i = .ldBVx x ∨ i = .ldMemVx x := by
  cases i <;> simp_all [touches]

/-- Settles O18: a part that differs is a part the instruction touches. -/
theorem onlyNamedInstructionsWrite : Obligations.OnlyNamedInstructionsWrite := by
  unfold Obligations.OnlyNamedInstructionsWrite
  intro i s t h
  have hframe := exec_unchanged h
  have touched {b : Bool} {p : Prop} (keep : b = false → p) (hne : ¬p) : b = true :=
    Bool.eq_true_of_not_eq_false (mt keep hne)
  exact ⟨fun hne => eq_of_touches_stack (touched hframe.stack hne), fun hne => eq_of_touches_dt (touched hframe.dt hne),
    fun hne => eq_of_touches_st (touched hframe.st hne), hframe.acc, hframe.cfg,
    fun hne => eq_of_touches_fb (touched hframe.fb hne), fun hne => eq_of_touches_i (touched hframe.i hne),
    fun a hne => eq_of_touches_mem (of_not_not (mt (hframe.mem a) hne))⟩

/-- Settles O19: the registers an instruction touches are those of the column "writes" of R23. -/
theorem onlyNamedRegistersChange : Obligations.OnlyNamedRegistersChange := by
  unfold Obligations.OnlyNamedRegistersChange
  intro i s t h r hr
  exact (exec_unchanged h).regs r (by rwa [touches_regs])

end Sys2Proof.Machine
end

section
/-! SUPPORT and PROOF. Where `PC` goes (10_state.md R26, R27): the targets of every instruction, what CALL pushes, and the bound of R27
along every step. -/

namespace Sys2Proof.Machine

/-- The values `PC` can have after an instruction that found the state `s`, with `s.pc = A + 2`. -/
inductive State.PcTarget (s : State) : Word → Prop where
  /-- the next instruction -/
  | next : s.PcTarget s.pc
  /-- the one after, of a taken skip (R26) -/
  | skip : s.PcTarget (s.pc + 2)
  /-- `A` itself: a fatal error, or LD Vx, K waiting -/
  | back : s.PcTarget s.instrAddr
  /-- a return address (41_control.md R120) -/
  | ret {a : Word} (h : a ∈ s.stack) : s.PcTarget a
  /-- an address operand, at most with an offset byte (R121, R122, R127) -/
  | jump {a : Word} (h : a.toNat ≤ 0xFFF + 0xFF) : s.PcTarget a

/-- The outcome is a next state whose `PC` is one of the targets. -/
def Lands (s : State) (r : Result) : Prop := ∃ t, r = .next t ∧ s.PcTarget t.pc

theorem Lands.of_raise {s : State} {r : Result} {k : ErrorKind} (h : r = raise k s.instrAddr s) : Lands s r := ⟨_, h, .back⟩

theorem Lands.of_next {s t : State} {r : Result} (h : r = .next t) (hpc : s.PcTarget t.pc) : Lands s r := ⟨t, h, hpc⟩

theorem skipIf_pcTarget (s : State) (b : Bool) : s.PcTarget (s.skipIf b).pc := by
  cases b
  · exact .next
  · exact .skip

/-- A 12-bit address is at most 0xFFF. -/
theorem zext16_address_le (nnn : BitVec 12) : (zext16 nnn).toNat ≤ 0xFFF := by
  have := nnn.isLt
  simp only [BitVec.toNat_setWidth]
  omega

/-- JP V0 does not wrap: the sum of an address and a byte is at most 0x10FE (41_control.md R127). -/
theorem zext16_add_offset_le (nnn : BitVec 12) (b : Byte) : (zext16 nnn + zext16 b).toNat ≤ 0xFFF + 0xFF := by
  have := nnn.isLt
  have := b.isLt
  simp only [BitVec.toNat_add, BitVec.toNat_setWidth]
  omega

/-- An instruction that does not touch `PC` when it completes lands on the next one or, by an error, on its own address. -/
theorem Lands.of_untouched {i : Instr} {s : State} (h : (touches s i).pc = false) : Lands s (exec i s) := by
  obtain ⟨k, hk⟩ | ⟨t, ht, hframe⟩ := exec_framed i s
  · exact .of_raise hk
  · exact .of_next ht (hframe.pc h ▸ .next)

/-- Every instruction lands on one of the targets. -/
theorem exec_lands (i : Instr) (s : State) : Lands s (exec i s) := by
  cases i with
  | ret =>
    obtain ⟨-, h⟩ | ⟨a, rest, hstack, h⟩ := execRet_cases s
    · exact .of_raise h
    · exact .of_next h (.ret (hstack ▸ List.mem_cons_self))
  | call nnn =>
    obtain ⟨-, h⟩ | ⟨-, h⟩ := execCall_cases nnn s
    · exact .of_raise h
    · exact .of_next h (.jump ((zext16_address_le nnn).trans (by decide)))
  | jp nnn => exact .of_next rfl (.jump ((zext16_address_le nnn).trans (by decide)))
  | jpV0 nnn => exact .of_next rfl (.jump (zext16_add_offset_le nnn _))
  | seByte | sneByte | seReg | sneReg => exact .of_next rfl (skipIf_pcTarget ..)
  | skp x =>
    obtain ⟨-, h⟩ | ⟨k, -, h⟩ := execSkp_cases x s
    · exact .of_raise h
    · exact .of_next h (skipIf_pcTarget ..)
  | sknp x =>
    obtain ⟨-, h⟩ | ⟨k, -, h⟩ := execSknp_cases x s
    · exact .of_raise h
    · exact .of_next h (skipIf_pcTarget ..)
  | ldVxK x =>
    obtain ⟨-, h⟩ | ⟨k, -, h⟩ := execLdVxK_cases x s
    · exact .of_next h .back
    · exact .of_next h .next
  | cls | ldByte | addByte | ldReg | orReg | andReg | xorReg | addReg | sub | subn | shr | shl | ldI | rnd | ldVxDt | ldDtVx
  | ldStVx | addI | drw | ldBVx | ldMemVx | ldVxMem => exact .of_untouched rfl

/-- After an instruction the stack holds old entries and the return address `A + 2` at most (10_state.md R29). -/
theorem exec_stack_mem {i : Instr} {s t : State} (h : exec i s = .next t) {a : Word} (ha : a ∈ t.stack) :
    a ∈ s.stack ∨ a = s.pc := by
  by_cases htouch : (touches s i).stack = true
  · obtain rfl | ⟨nnn, rfl⟩ := eq_of_touches_stack htouch
    · obtain ⟨-, h'⟩ | ⟨b, rest, hstack, h'⟩ := execRet_cases s
      · cases h.symm.trans h'
        exact .inl ha
      · cases h.symm.trans h'
        exact .inl (hstack ▸ List.mem_cons_of_mem b ha)
    · obtain ⟨-, h'⟩ | ⟨-, h'⟩ := execCall_cases nnn s
      · cases h.symm.trans h'
        exact .inl ha
      · cases h.symm.trans h'
        exact (List.mem_cons.1 ha).symm
  · exact .inl ((exec_unchanged h).stack (Bool.eq_false_of_not_eq_true htouch) ▸ ha)

/-- The targets of an instruction fetched inside memory stay within the bound of R27: neither the advance, nor a skip, nor the way back
to `A` wraps. -/
theorem State.PcTarget.le_bound {s : State} {w : Word} (h : s.PcTarget w) (hlow : 2 ≤ s.pc.toNat)
    (hhigh : s.pc.toNat ≤ s.cfg.memSize) (hstack : ∀ a ∈ s.stack, a.toNat ≤ s.cfg.memSize) :
    w.toNat ≤ max (s.cfg.memSize + 2) (0xFFF + 0xFF) := by
  cases h with
  | next => omega
  | skip =>
    have := BitVec.toNat_add s.pc 2
    have : (2 : Word).toNat = 2 := rfl
    omega
  | back =>
    have : s.instrAddr.toNat = _ := BitVec.toNat_sub s.pc 2
    have : (2 : Word).toNat = 2 := rfl
    omega
  | ret hmem => have := hstack w hmem; omega
  | jump hle => omega

/-- An instruction fetched at an `A` with `A + 1 < MEM_SIZE`, which it finds as `PC = A + 2`, keeps the bound. -/
theorem exec_pcBound {i : Instr} {s t : State} (h : exec i s = .next t) (hb : s.PcBound) (hlow : 2 ≤ s.pc.toNat)
    (hhigh : s.pc.toNat ≤ s.cfg.memSize) : t.PcBound := by
  have hcfg : t.cfg = s.cfg := (exec_unchanged h).cfg
  obtain ⟨u, hu, htarget⟩ := exec_lands i s
  cases h.symm.trans hu
  constructor
  case size => exact hcfg ▸ hb.size
  case stack =>
    intro a ha
    rw [hcfg]
    obtain hmem | rfl := exec_stack_mem h ha
    · exact hb.stack a hmem
    · exact hhigh
  case pc =>
    rw [hcfg]
    exact htarget.le_bound hlow hhigh hb.stack

/-- The bound speaks of `PC`, the stack and `MEM_SIZE` only. -/
theorem State.PcBound.congr {s t : State} (hb : s.PcBound) (hpc : t.pc = s.pc) (hstack : t.stack = s.stack)
    (hcfg : t.cfg = s.cfg) : t.PcBound :=
  ⟨hcfg ▸ hb.size, by rw [hstack, hcfg]; exact hb.stack, by rw [hpc, hcfg]; exact hb.pc⟩

/-- A word is read only where both its bytes lie in memory (20_memory.md R53). -/
theorem State.memRead16_inside {s : State} {a : Nat} {ins : Word} (h : s.memRead16 a = .ok ins) : a + 1 < s.cfg.memSize := by
  obtain ⟨-, herr⟩ | ⟨-, herr⟩ | ⟨hin, -⟩ := s.memRead16_cases a
  · cases h.symm.trans herr
  · cases h.symm.trans herr
  · exact hin

/-- After the advance from an `A` with `A + 1 < MEM_SIZE`, `PC` is `A + 2`, without wrapping. -/
theorem advance_toNat {s : State} (hb : s.PcBound) (hin : s.pc.toNat + 1 < s.cfg.memSize) :
    (s.pc + 2).toNat = s.pc.toNat + 2 := by
  have := hb.size
  have := BitVec.toNat_add s.pc 2
  have : (2 : Word).toNat = 2 := rfl
  omega

theorem advance_pcBound {s : State} (hb : s.PcBound) (hin : s.pc.toNat + 1 < s.cfg.memSize) : s.advance.PcBound where
  size := hb.size
  stack := hb.stack
  pc := by
    have := advance_toNat hb hin
    simp only [State.advance_eq, State.setPc_pc, State.setPc_cfg]
    omega

/-- A step in `RUNNING` keeps the bound: an error leaves `PC` at `A`, and an instruction runs from an `A` inside memory. -/
theorem stepRunning_pcBound {s u : State} (hb : s.PcBound) (h : stepRunning s = .next u) : u.PcBound := by
  obtain ⟨a, -, h'⟩ | ⟨ins, w, -, -, h'⟩ | ⟨ins, i, hread, -, h'⟩ := stepRunning_cases s
  · cases h.symm.trans h'
    exact hb.congr rfl rfl rfl
  · cases h.symm.trans h'
    exact hb.congr rfl rfl rfl
  · have hin := State.memRead16_inside hread
    have hpc : s.advance.pc.toNat = s.pc.toNat + 2 := advance_toNat hb hin
    exact exec_pcBound (h'.symm.trans h) (advance_pcBound hb hin) (by omega) (by rw [hpc]; exact hin)

/-- A poll keeps the bound when it waits at an `A` inside memory (60_exceptions.md R216). -/
theorem pollKey_pcBound (x : Reg) {s : State} (hb : s.PcBound) (hin : s.pc.toNat + 1 < s.cfg.memSize) :
    (pollKey x s).PcBound := by
  unfold pollKey
  split
  · exact hb
  · exact (advance_pcBound hb hin).congr rfl rfl rfl

/-- While waiting, `PC` is at an LD Vx, K inside memory (10_state.md R33). -/
theorem State.Inv.waiting_inside {s : State} (h : s.Inv) {x : Reg} (hmode : s.mode = .waiting x) :
    s.pc.toNat + 1 < s.cfg.memSize := by
  obtain ⟨ins, hread, -⟩ := h.waiting_pc x hmode
  exact State.memRead16_inside hread

/-- An interpreter step keeps the bound, in every mode. -/
theorem interpStep_pcBound {s u : State} (hb : s.PcBound)
    (hwait : ∀ x, s.mode = .waiting x → s.pc.toNat + 1 < s.cfg.memSize) (h : interpStep s = .next u) : u.PcBound := by
  unfold interpStep at h
  split at h
  case h_1 => exact stepRunning_pcBound hb h
  case h_2 x hmode =>
    cases h
    exact pollKey_pcBound x hb (hwait x hmode)
  case h_3 => cases h

/-- Every step keeps the bound of R27. -/
theorem step_pcBound {s u : State} (hinv : s.Inv) (hb : s.PcBound) (h : step s = .next u) : u.PcBound := by
  obtain ⟨e, rest, -, h'⟩ | ⟨inp, t, hask, h'⟩ := step_cases s
  · cases h.symm.trans h'
    exact hb.congr (tick_pc ..) (tick_stack ..) (tick_cfg ..)
  · obtain ⟨-, -, hpc, hstack, -, hmode, -, hcfg, -⟩ := Asked.frame hask
    refine interpStep_pcBound (hb.congr hpc hstack hcfg) (fun x hx => ?_) (h'.symm.trans h)
    rw [hpc, hcfg]
    exact hinv.waiting_inside (hmode ▸ hx)

/-- Settles O17: a word is fetched only inside memory, and there `A + 4` fits in 16 bits; the bound is kept by every step. -/
theorem stepKeepsPcInRange : Obligations.StepKeepsPcInRange := by
  unfold Obligations.StepKeepsPcInRange
  intro s hinv hb
  have hsize := hb.size
  refine ⟨fun ins hread => ?_, fun x hmode => ?_, fun t h => step_pcBound hinv hb h⟩
  · have := State.memRead16_inside hread
    omega
  · have := hinv.waiting_inside hmode
    omega

end Sys2Proof.Machine
end

section
/-! SUPPORT and PROOF. The canonical form determines a memory from its reads (10_state.md R34; 20_memory.md R50). -/

namespace Sys2Proof.Machine

/-- A listed byte is what its address reads as. -/
theorem Memory.read_of_mem {m : Memory} (h : Memory.wf m) {c : Host.Cell} (hc : c ∈ m) : Memory.read m c.1 = c.2 := by
  induction m with
  | nil => cases hc
  | cons d rest ih =>
    obtain ⟨hsorted, hlisted⟩ := h
    obtain ⟨hfirst, hrest⟩ := List.pairwise_cons.1 hsorted
    obtain rfl | hc := List.mem_cons.1 hc
    · simp [Memory.read]
    · rw [Memory.read, if_neg (hfirst c hc).ne']
      exact ih ⟨hrest, fun e he => hlisted e (List.mem_cons_of_mem _ he)⟩ hc

/-- An address that reads as anything but the blank byte is listed. -/
theorem Memory.mem_of_read_ne {m : Memory} {a : Nat} (h : Memory.read m a ≠ Memory.blank) : (a, Memory.read m a) ∈ m := by
  induction m with
  | nil => exact absurd rfl h
  | cons d rest ih =>
    rw [Memory.read] at h ⊢
    split at h
    · simp [*]
    · simp [*]

/-- A canonical memory lists exactly the addresses that do not read as the blank byte. -/
theorem Memory.mem_iff_read {m : Memory} (h : Memory.wf m) (c : Host.Cell) :
    c ∈ m ↔ Memory.read m c.1 = c.2 ∧ c.2 ≠ Memory.blank := by
  constructor
  · exact fun hc => ⟨Memory.read_of_mem h hc, h.2 c hc⟩
  · rintro ⟨hread, hne⟩
    have hmem := Memory.mem_of_read_ne (hread.trans_ne hne)
    rwa [hread] at hmem

/-- Settles O27: the two lists have the same members, and both are strictly sorted by address. -/
theorem canonicalMemoriesAreEqual : Obligations.CanonicalMemoriesAreEqual := by
  unfold Obligations.CanonicalMemoriesAreEqual
  intro m m' h h' hread
  have hirrefl : Std.Irrefl (fun c d : Host.Cell => c.1 < d.1) := ⟨fun c => lt_irrefl c.1⟩
  have hantisymm : Std.Antisymm (fun c d : Host.Cell => c.1 < d.1) := ⟨fun c d hcd hdc => absurd hcd hdc.not_gt⟩
  refine List.Pairwise.eq_of_mem_iff h.1 h'.1 fun c => ?_
  rw [Memory.mem_iff_read h, Memory.mem_iff_read h', hread]

end Sys2Proof.Machine
end

section
/-! SUPPORT and PROOF. What instructions cannot see (10_state.md R30, R31): an update of a part that no instruction reads can be made
before an instruction or after it. -/

namespace Sys2Proof.Machine

/-- `f` on the next state of an outcome. -/
def mapNext (f : State → State) : Result → Result
  | .next s => .next (f s)
  | .fault r => .fault r
  | .refused r => .refused r

/-- `f` changes neither the parts instructions read nor what is written to them. `input` and `ST` are left out: only some
instructions read the one or write the other. -/
structure Unseen (f : State → State) : Prop where
  v : ∀ s, (f s).v = s.v
  i : ∀ s, (f s).i = s.i
  pc : ∀ s, (f s).pc = s.pc
  stack : ∀ s, (f s).stack = s.stack
  dt : ∀ s, (f s).dt = s.dt
  fb : ∀ s, (f s).fb = s.fb
  mem : ∀ s, (f s).mem = s.mem
  cfg : ∀ s, (f s).cfg = s.cfg
  setV : ∀ s v, f (s.setV v) = (f s).setV v
  setI : ∀ s w, f (s.setI w) = (f s).setI w
  setPc : ∀ s w, f (s.setPc w) = (f s).setPc w
  setStack : ∀ s l, f (s.setStack l) = (f s).setStack l
  setDt : ∀ s b, f (s.setDt b) = (f s).setDt b
  setFb : ∀ s g, f (s.setFb g) = (f s).setFb g
  setMode : ∀ s m, f (s.setMode m) = (f s).setMode m
  setMem : ∀ s m, f (s.setMem m) = (f s).setMem m

theorem setAcc_unseen (n : Nat) : Unseen (·.setAcc n) := by constructor <;> intros <;> rfl

theorem setSt_unseen (b : Byte) : Unseen (·.setSt b) := by constructor <;> intros <;> rfl

section
variable {f : State → State} (hf : Unseen f)
include hf

namespace Unseen

/-! ### reads and writes of the instructions past `f` -/

theorem reg (s : State) (r : Reg) : (f s).reg r = s.reg r := by
  rw [State.reg, hf.v, State.reg]

theorem writeReg (s : State) (r : Reg) (b : Byte) : f (s.writeReg r b) = (f s).writeReg r b :=
  (hf.setV s (s.v.set r.val b r.isLt)).trans (by rw [← hf.v s]; rfl)

theorem write2 (s : State) (x : Reg) (res : Byte) (flag last : Bool) :
    f (s.write2 x res flag last) = (f s).write2 x res flag last := by
  cases last <;> simp [State.write2, hf.writeReg]

theorem skipIf (s : State) (b : Bool) : f (s.skipIf b) = (f s).skipIf b := by
  cases b <;> simp [State.skipIf, hf.setPc, hf.pc]

theorem bumpI (s : State) (x : Reg) : f (s.bumpI x) = (f s).bumpI x := by
  simp only [State.bumpI, hf.cfg, hf.i, ← hf.setI, apply_ite f]

theorem raise (k : ErrorKind) (s : State) : raise k (f s).instrAddr (f s) = mapNext f (raise k s.instrAddr s) := by
  simp [Machine.raise, mapNext, State.instrAddr, hf.pc, hf.setPc, hf.setMode]

theorem memRead (s : State) (a n : Nat) : (f s).memRead a n = s.memRead a n := by
  simp [State.memRead, hf.cfg, hf.mem]

theorem memWrite (s : State) (a : Nat) (bytes : List Byte) : (f s).memWrite a bytes = (s.memWrite a bytes).map f := by
  simp only [State.memWrite, hf.cfg, hf.mem, ← hf.setMem]
  cases firstOut s.cfg.memSize a bytes.length <;> rfl

end Unseen

/-- An instruction that reads `input` or writes `ST` only where `f` lets it through does the same before `f` and after it. -/
theorem exec_unseen (i : Instr) (s : State) (hinput : readsInput i = true → (f s).input = s.input)
    (hst : ∀ x, i = .ldStVx x → ∀ b, f (s.setSt b) = (f s).setSt b) : exec i (f s) = mapNext f (exec i s) := by
  cases i with
  | ret =>
    simp only [exec, execRet, State.popReturn, hf.stack]
    cases s.stack with
    | nil => exact hf.raise ..
    | cons a rest => simp [mapNext, hf.setPc, hf.setStack]
  | call nnn =>
    simp only [exec, execCall, State.pushReturn, hf.stack, hf.cfg, hf.pc]
    split_ifs
    · exact hf.raise ..
    · simp [mapNext, hf.setPc, hf.setStack]
  | addI x =>
    simp only [exec, execAddI, hf.i, hf.reg]
    split_ifs
    · exact hf.raise ..
    · simp [mapNext, hf.setI]
  | drw x y n =>
    simp only [exec, execDrw, drwPixels, hf.memRead, hf.i, hf.reg, hf.cfg, hf.fb]
    cases s.memRead s.i.toNat n.toNat with
    | error a => exact hf.raise ..
    | ok rows => simp [mapNext, hf.writeReg, hf.setFb]
  | ldBVx x =>
    simp only [exec, execLdBVx, hf.memWrite, hf.i, hf.reg]
    cases s.memWrite s.i.toNat (bcdDigits (s.reg x)) with
    | error a => exact hf.raise ..
    | ok t => rfl
  | ldMemVx x =>
    simp only [exec, execLdMemVx, hf.memWrite, State.regsUpTo, hf.v, hf.i]
    cases s.memWrite s.i.toNat (s.v.toList.take (x.val + 1)) with
    | error a => exact hf.raise ..
    | ok t => simp [Except.map, mapNext, hf.bumpI]
  | ldVxMem x =>
    simp only [exec, execLdVxMem, hf.memRead, hf.v, hf.i]
    cases s.memRead s.i.toNat (x.val + 1) with
    | error a => exact hf.raise ..
    | ok bytes => simp [mapNext, hf.setV, hf.bumpI]
  | skp x =>
    simp only [exec, execSkp, hf.reg, hinput rfl]
    cases keyOf (s.reg x) with
    | none => exact hf.raise ..
    | some k => simp [mapNext, hf.skipIf]
  | sknp x =>
    simp only [exec, execSknp, hf.reg, hinput rfl]
    cases keyOf (s.reg x) with
    | none => exact hf.raise ..
    | some k => simp [mapNext, hf.skipIf]
  | ldVxK x =>
    simp only [exec, execLdVxK, State.instrAddr, hinput rfl, hf.pc]
    cases chooseKey s.input with
    | none => simp [mapNext, hf.setPc, hf.setMode]
    | some k => simp [mapNext, hf.writeReg]
  | rnd x nn => simp [exec, execRnd, mapNext, hinput rfl, hf.writeReg]
  | ldStVx x => simp [exec, execLdStVx, mapNext, hst x rfl, hf.reg]
  | addReg | sub | subn => simp [exec, execAddReg, execSub, execSubn, mapNext, hf.write2, hf.reg, hf.cfg]
  | shr | shl => simp [exec, execShr, execShl, State.shiftOperand, mapNext, hf.write2, hf.reg, hf.cfg]
  | seByte | sneByte | seReg | sneReg =>
    simp [exec, execSeByte, execSneByte, execSeReg, execSneReg, mapNext, hf.skipIf, hf.reg]
  | jp | jpV0 => simp [exec, execJp, execJpV0, State.jumpOffset, mapNext, hf.setPc, hf.reg, hf.cfg]
  | ldByte | addByte | ldReg | orReg | andReg | xorReg | ldVxDt =>
    simp [exec, execLdByte, execAddByte, execLdReg, execOrReg, execAndReg, execXorReg, execLdVxDt, mapNext, hf.writeReg, hf.reg,
      hf.dt]
  | cls | ldI | ldDtVx => simp [exec, execCls, execLdI, execLdDtVx, mapNext, hf.setFb, hf.setI, hf.setDt, hf.reg, hf.cfg]

end

/-- Settles O21: `ACC` and `ST` are unseen, no instruction reads an input through either, and only LD ST, Vx writes `ST`. -/
theorem instructionsCannotSeeAccOrSt : Obligations.InstructionsCannotSeeAccOrSt := by
  unfold Obligations.InstructionsCannotSeeAccOrSt
  intro i s t h
  constructor
  · intro n
    rw [exec_unseen (setAcc_unseen n) i s (fun _ => rfl) (fun _ _ _ => rfl), h, mapNext]
  · intro b hst
    rw [exec_unseen (setSt_unseen b) i s (fun _ => rfl) (fun x hx => absurd hx (hst x)), h, mapNext]

end Sys2Proof.Machine
end

section
/-! SUPPORT and PROOF. `MemRead` and `MemWrite` (20_memory.md R52, R54), and the fetch beyond memory (R53): the bounds check, said
address by address, decides what each answers. -/

namespace Sys2Proof.Machine

/-! ### the bounds check, address by address -/

/-- An access whose every address lies in memory is empty or ends in memory. -/
theorem access_inside {size a n : Nat} (hin : ∀ k < n, a + k < size) : n = 0 ∨ a + n ≤ size := by
  cases n with
  | zero => exact .inl rfl
  | succ n => exact .inr (hin n n.lt_succ_self)

/-- The first offset that falls outside memory gives the address reported. -/
theorem firstOut_of_first_outside {size a n k : Nat} (hk : k < n) (hout : size ≤ a + k) (hfirst : ∀ j < k, a + j < size) :
    firstOut size a n = some (a + k) := by
  refine firstOut_eq_some.2 ⟨Nat.le_add_right a k, Nat.add_lt_add_left hk a, hout, fun c hac hck => ?_⟩
  have := hfirst (c - a) (by omega)
  omega

/-- Settles O25: inside memory the read gives the bytes in order; otherwise the check finds the first address outside. -/
theorem memReadRule : Obligations.MemReadRule := by
  unfold Obligations.MemReadRule
  intro s a n
  constructor
  · intro hin
    rw [State.memRead_inside (access_inside hin), State.readMany_eq_map]
  · intro k hk hout hfirst
    exact State.memRead_outside (firstOut_of_first_outside hk hout hfirst)

/-- Settles O26: inside memory the bytes land and the rest is framed; otherwise the check finds the first address outside, and there is
no state. -/
theorem memWriteRule : Obligations.MemWriteRule := by
  unfold Obligations.MemWriteRule
  intro s a bytes
  constructor
  · intro hin
    refine ⟨_, State.memWrite_inside (access_inside hin), fun k hk => ?_, s.setMem_writeMany_unchanged a bytes⟩
    rw [State.byteAt_setMem_writeMany, if_pos ⟨Nat.le_add_right a k, Nat.add_lt_add_left hk a⟩, Nat.add_sub_cancel_left]
  · intro k hk hout hfirst
    exact State.memWrite_outside (firstOut_of_first_outside hk hout hfirst)

/-! ### the fetch -/

/-- An interpreter step asked for in `RUNNING` is a fetch, decode and dispatch in the state it is met in (30_encoding.md R80). -/
theorem step_asked_running {s t : State} {inp : StepInput} (hask : s.Asked inp t) (hmode : s.mode = .running) :
    step s = stepRunning t := by
  obtain ⟨-, -, -, -, -, htmode, -⟩ := Asked.frame hask
  rw [step_asked hask, interpStep, htmode.trans hmode]

/-- A fetch that fails at the address `a` halts at `PC` with `OutOfBounds(a)`. -/
theorem stepRunning_halts_of_fetch_error {s : State} {a : Nat} (h : s.memRead16 s.pc.toNat = .error a) :
    ∃ u, stepRunning s = .next u ∧ HaltedAt s u (.outOfBounds a) s.pc := by
  have hraise : stepRunning s = raise (.outOfBounds a) s.pc s := by simp [stepRunning, h]
  exact hraise ▸ raise_haltedAt (.outOfBounds a) s.pc s

/-- Settles O8: the 16-bit read checks the high byte's address first, and the fetch raises the error it answers. -/
theorem fetchBeyondMemoryHalts : Obligations.FetchBeyondMemoryHalts := by
  unfold Obligations.FetchBeyondMemoryHalts
  intro s t inp hask hmode
  obtain ⟨-, -, hpc, -, -, -, -, hcfg, -⟩ := Asked.frame hask
  rw [step_asked_running hask hmode, ← hpc, ← hcfg]
  obtain ⟨hhigh, herr⟩ | ⟨hlow, herr⟩ | ⟨hin, -⟩ := t.memRead16_cases t.pc.toNat
  · exact ⟨fun _ => stepRunning_halts_of_fetch_error herr, fun _ => by omega⟩
  · exact ⟨fun _ => by omega, fun _ => stepRunning_halts_of_fetch_error herr⟩
  · exact ⟨fun _ => by omega, fun _ => by omega⟩

end Sys2Proof.Machine
end

section
/-! SUPPORT and PROOF. Every step keeps the invariant of the machine. Its clauses on the data (parameters, memory, grid, stack) are kept
by every instruction in any mode; its clauses on `MODE` are established by the step as a whole. -/

namespace Sys2Proof.Machine

/-- The clauses of the invariant that do not speak of `MODE`. -/
structure State.DataInv (s : State) : Prop where
  cfg_wf : s.cfg.wf = true
  mem_wf : Memory.wf s.mem
  mem_in : ∀ c ∈ s.mem, c.1 < s.cfg.memSize
  fb_sized : Framebuffer.Sized s.cfg.fbW s.cfg.fbH s.fb
  stack_cap : ∀ n, s.cfg.stackCapacity = some n → s.stack.length ≤ n

theorem State.Inv.data {s : State} (h : s.Inv) : s.DataInv :=
  ⟨h.cfg_wf, h.mem_wf, h.mem_in, ⟨h.fb_rows, h.fb_cols⟩, h.stack_cap⟩

/-! ### the data through the state operations -/

namespace State.DataInv

/-- The clauses on the data speak of the parameters, memory, the grid and the stack only. -/
theorem congr {s t : State} (h : s.DataInv) (hcfg : t.cfg = s.cfg) (hmem : t.mem = s.mem) (hfb : t.fb = s.fb)
    (hstack : t.stack = s.stack) : t.DataInv := by
  obtain ⟨hwf, hmwf, hmin, hsized, hcap⟩ := h
  constructor <;> simpa only [hcfg, hmem, hfb, hstack]

/-- A write of several bytes inside memory (20_memory.md R54). -/
theorem setMem_writeMany {s : State} (h : s.DataInv) {a : Nat} {bytes : List Byte} (hin : a + bytes.length ≤ s.cfg.memSize) :
    (s.setMem (Memory.writeMany s.mem a bytes)).DataInv where
  cfg_wf := h.cfg_wf
  mem_wf := Memory.writeMany_wf h.mem_wf a bytes
  mem_in c hc := (Memory.mem_writeMany hc).elim (h.mem_in c) (fun hnew => hnew.2.trans_le hin)
  fb_sized := h.fb_sized
  stack_cap := h.stack_cap

theorem setFb {s : State} (h : s.DataInv) {f : Framebuffer} (hf : Framebuffer.Sized s.cfg.fbW s.cfg.fbH f) :
    (s.setFb f).DataInv :=
  { h with fb_sized := hf }

theorem setStack {s : State} (h : s.DataInv) {l : List Word} (hl : ∀ n, s.cfg.stackCapacity = some n → l.length ≤ n) :
    (s.setStack l).DataInv :=
  { h with stack_cap := hl }

theorem setV {s : State} (h : s.DataInv) (v : Vector Byte 16) : (s.setV v).DataInv :=
  h.congr rfl rfl rfl rfl

theorem write2 {s : State} (h : s.DataInv) (x : Reg) (res : Byte) (flag last : Bool) : (s.write2 x res flag last).DataInv :=
  h.congr (by simp) (by simp) (by simp) (by simp)

theorem skipIf {s : State} (h : s.DataInv) (b : Bool) : (s.skipIf b).DataInv :=
  h.congr (by simp) (by simp) (by simp) (by simp)

theorem bumpI {s : State} (h : s.DataInv) (x : Reg) : (s.bumpI x).DataInv :=
  h.congr (by simp) (by simp) (by simp) (by simp)

end State.DataInv

/-! ### the data through an instruction -/

/-- The outcome is a next state that meets the clauses on the data. -/
def AnswersData (r : Result) : Prop := ∃ t, r = .next t ∧ t.DataInv

theorem AnswersData.of_raise {s : State} {r : Result} {k : ErrorKind} {a : Word} (hs : s.DataInv) (h : r = raise k a s) :
    AnswersData r :=
  ⟨_, h, hs.congr rfl rfl rfl rfl⟩

/-- Every instruction keeps the clauses on the data: CALL pushes only below the capacity, CLS and DRW keep the size of the grid, LD B and
LD [I] write only inside memory, and the others write none of it. -/
theorem exec_answersData (i : Instr) {s : State} (hs : s.DataInv) : AnswersData (exec i s) := by
  cases i with
  | ret =>
    obtain ⟨-, h⟩ | ⟨a, rest, hstack, h⟩ := execRet_cases s
    · exact .of_raise hs h
    · have hrest : rest.length ≤ s.stack.length := hstack ▸ Nat.le_succ rest.length
      exact ⟨_, h, (hs.setStack fun n hn => hrest.trans (hs.stack_cap n hn)).congr rfl rfl rfl rfl⟩
  | call nnn =>
    obtain ⟨-, h⟩ | ⟨hroom, h⟩ := execCall_cases nnn s
    · exact .of_raise hs h
    · have hpush : ∀ n, s.cfg.stackCapacity = some n → (s.pc :: s.stack).length ≤ n := fun n hn =>
        (hs.stack_cap n hn).lt_of_ne fun hfull => hroom (hfull ▸ hn)
      exact ⟨_, h, (hs.setStack hpush).congr rfl rfl rfl rfl⟩
  | cls => exact ⟨_, rfl, hs.setFb (Framebuffer.clear_sized _ _)⟩
  | drw x y n =>
    obtain ⟨a, -, h⟩ | ⟨drawn, rfl, -, h⟩ := execDrw_cases x y n s
    · exact .of_raise hs h
    · exact ⟨_, h, (hs.setFb (flipAll_sized hs.fb_sized _)).congr rfl rfl rfl rfl⟩
  | ldBVx x =>
    obtain ⟨a, -, h⟩ | ⟨hin, h⟩ := execLdBVx_cases x s
    · exact .of_raise hs h
    · exact ⟨_, h, hs.setMem_writeMany hin⟩
  | ldMemVx x =>
    obtain ⟨a, -, h⟩ | ⟨hin, h⟩ := execLdMemVx_cases x s
    · exact .of_raise hs h
    · have hlen : s.i.toNat + (s.regsUpTo x).length ≤ s.cfg.memSize := by rwa [State.regsUpTo_length]
      exact ⟨_, h, (hs.setMem_writeMany hlen).bumpI x⟩
  | ldVxMem x =>
    obtain ⟨a, -, h⟩ | ⟨-, h⟩ := execLdVxMem_cases x s
    · exact .of_raise hs h
    · exact ⟨_, h, (hs.setV _).bumpI x⟩
  | addI x =>
    obtain ⟨-, h⟩ | ⟨-, h⟩ := execAddI_cases x s
    · exact .of_raise hs h
    · exact ⟨_, h, hs.congr rfl rfl rfl rfl⟩
  | skp x =>
    obtain ⟨-, h⟩ | ⟨k, -, h⟩ := execSkp_cases x s
    · exact .of_raise hs h
    · exact ⟨_, h, hs.skipIf _⟩
  | sknp x =>
    obtain ⟨-, h⟩ | ⟨k, -, h⟩ := execSknp_cases x s
    · exact .of_raise hs h
    · exact ⟨_, h, hs.skipIf _⟩
  | ldVxK x =>
    obtain ⟨-, h⟩ | ⟨k, -, h⟩ := execLdVxK_cases x s
    · exact ⟨_, h, hs.congr rfl rfl rfl rfl⟩
    · exact ⟨_, h, hs.congr rfl rfl rfl rfl⟩
  | addReg | sub | subn | shr | shl => exact ⟨_, rfl, hs.write2 ..⟩
  | seByte | sneByte | seReg | sneReg => exact ⟨_, rfl, hs.skipIf _⟩
  | jp | jpV0 | ldByte | addByte | ldReg | orReg | andReg | xorReg | ldI | rnd | ldVxDt | ldDtVx | ldStVx =>
    exact ⟨_, rfl, hs.congr rfl rfl rfl rfl⟩

theorem exec_dataInv {i : Instr} {s t : State} (h : exec i s = .next t) (hs : s.DataInv) : t.DataInv := by
  obtain ⟨u, hu, hdata⟩ := exec_answersData i hs
  cases h.symm.trans hu
  exact hdata

/-! ### the mode after an instruction -/

theorem eq_of_touches_mode {s : State} {i : Instr} (h : (touches s i).mode = true) : ∃ x, i = .ldVxK x := by
  cases i <;> simp_all [touches]

/-- An instruction raises an error, is the LD Vx, K that now waits at its own address, or keeps the mode. -/
theorem exec_mode_cases (i : Instr) (s : State) :
    (∃ k, exec i s = raise k s.instrAddr s) ∨
    (∃ x, i = .ldVxK x ∧ exec i s = .next ((s.setPc s.instrAddr).setMode (.waiting x))) ∨
    (∃ t, exec i s = .next t ∧ t.mode = s.mode) := by
  by_cases htouch : (touches s i).mode = true
  · obtain ⟨x, rfl⟩ := eq_of_touches_mode htouch
    obtain ⟨-, h⟩ | ⟨k, -, h⟩ := execLdVxK_cases x s
    · exact .inr (.inl ⟨x, rfl, h⟩)
    · exact .inr (.inr ⟨_, h, rfl⟩)
  · obtain hraise | ⟨t, ht, hframe⟩ := exec_framed i s
    · exact .inl hraise
    · exact .inr (.inr ⟨t, ht, hframe.mode (Bool.eq_false_of_not_eq_true htouch)⟩)

/-! ### the invariant, mode by mode -/

namespace State.DataInv

/-- The invariant is the clauses on the data and the two on `MODE`. -/
theorem inv {s : State} (h : s.DataInv)
    (hwait : ∀ x, s.mode = .waiting x → ∃ ins, s.memRead16 s.pc.toNat = .ok ins ∧ decode ins = .instr (.ldVxK x))
    (hhalt : ∀ e, s.mode = .halted e → e.addr = s.pc) : s.Inv :=
  ⟨h.cfg_wf, h.mem_wf, h.mem_in, h.fb_sized.1, h.fb_sized.2, h.stack_cap, hwait, hhalt⟩

theorem inv_of_running {s : State} (h : s.DataInv) (hmode : s.mode = .running) : s.Inv :=
  h.inv (fun _ hx => by cases hmode.symm.trans hx) (fun _ he => by cases hmode.symm.trans he)

/-- Waiting at an LD Vx, K (10_state.md R33). -/
theorem inv_of_waiting {s : State} (h : s.DataInv) {x : Reg} {ins : Word} (hmode : s.mode = .waiting x)
    (hread : s.memRead16 s.pc.toNat = .ok ins) (hdec : decode ins = .instr (.ldVxK x)) : s.Inv := by
  refine h.inv (fun x' hx' => ?_) (fun e he => by cases hmode.symm.trans he)
  cases hmode.symm.trans hx'
  exact ⟨ins, hread, hdec⟩

/-- A fatal error records the address it leaves in `PC` (00_scope.md R13). -/
theorem inv_of_raise {s u : State} {k : ErrorKind} {a : Word} (h : s.DataInv) (hu : raise k a s = .next u) : u.Inv := by
  cases hu
  exact inv (h.congr rfl rfl rfl rfl) (fun x hx => by cases hx) (fun e he => by cases he; rfl)

end State.DataInv

/-- The invariant speaks of the data, `MODE` and `PC` only. -/
theorem State.Inv.congr {s t : State} (h : s.Inv) (hcfg : t.cfg = s.cfg) (hmem : t.mem = s.mem) (hfb : t.fb = s.fb)
    (hstack : t.stack = s.stack) (hmode : t.mode = s.mode) (hpc : t.pc = s.pc) : t.Inv := by
  obtain ⟨hwf, hmwf, hmin, hrows, hcols, hcap, hwait, hhalt⟩ := h
  constructor <;> simpa only [hcfg, hmem, hfb, hstack, hmode, hpc, State.memRead16, State.byteAt]

/-! ### the step -/

/-- A step in `RUNNING` keeps the invariant; an LD Vx, K that waits does so at the word just fetched. -/
theorem stepRunning_inv {s u : State} (hs : s.DataInv) (hmode : s.mode = .running) (h : stepRunning s = .next u) : u.Inv := by
  obtain ⟨a, -, h'⟩ | ⟨ins, w, -, -, h'⟩ | ⟨ins, i, hread, hdec, h'⟩ := stepRunning_cases s
  · exact hs.inv_of_raise (h'.symm.trans h)
  · exact hs.inv_of_raise (h'.symm.trans h)
  · have hadv : s.advance.DataInv := hs.congr rfl rfl rfl rfl
    have hexec := h'.symm.trans h
    obtain ⟨k, hk⟩ | ⟨x, rfl, hwait⟩ | ⟨t, ht, htmode⟩ := exec_mode_cases i s.advance
    · exact hadv.inv_of_raise (hk.symm.trans hexec)
    · cases hwait.symm.trans hexec
      exact (exec_dataInv hwait hadv).inv_of_waiting rfl (by simpa using hread) hdec
    · cases ht.symm.trans hexec
      exact (exec_dataInv ht hadv).inv_of_running (htmode.trans hmode)

/-- A poll keeps the invariant: it goes on waiting in the same state, or takes a key and runs on (60_exceptions.md R216). -/
theorem pollKey_inv (x : Reg) {s : State} (hs : s.Inv) : (pollKey x s).Inv := by
  unfold pollKey
  split
  · exact hs
  · exact State.DataInv.inv_of_running (hs.data.congr rfl rfl rfl rfl) rfl

/-- An interpreter step keeps the invariant, in every mode. -/
theorem interpStep_inv {s u : State} (hs : s.Inv) (h : interpStep s = .next u) : u.Inv := by
  unfold interpStep at h
  split at h
  case h_1 hmode => exact stepRunning_inv hs.data hmode h
  case h_2 x _ =>
    cases h
    exact pollKey_inv x hs
  case h_3 => cases h

/-- Settles O16: a tick changes nothing the invariant speaks of, and an interpreter step keeps it from the state it is met in. -/
theorem stepKeepsTheInvariant : Obligations.StepKeepsTheInvariant := by
  unfold Obligations.StepKeepsTheInvariant
  intro s u hs h
  obtain ⟨e, rest, -, h'⟩ | ⟨inp, t, hask, h'⟩ := step_cases s
  · cases h.symm.trans h'
    exact hs.congr (by simp) (by simp) (by simp) (by simp) (by simp) (by simp)
  · obtain ⟨-, -, hpc, hstack, hfb, hmode, hmem, hcfg, -⟩ := Asked.frame hask
    exact interpStep_inv (hs.congr hcfg hmem hfb hstack hmode hpc) (h'.symm.trans h)

end Sys2Proof.Machine
end

section
/-! SUPPORT and PROOF. Decode and encode (30_encoding.md R71 to R73, R83 to R86). Decode's answer is said once for every word: an
instruction whose encoding is the word, or `UNKNOWN` for a word of the table of R86. -/

namespace Sys2Proof

/-! ### a word from its fields, by format (R73) -/

theorem encAddr_of_fields {w : Word} {op : BitVec 4} (hop : (fieldOp w).toNat = op.toNat) : encAddr op (fieldNNN w) = w := by
  rw [← BitVec.eq_of_toNat_eq hop]
  exact (BitVec.extractLsb'_append_extractLsb'_eq_extractLsb' rfl).trans BitVec.extractLsb'_eq_self

theorem encRegByte_of_fields {w : Word} {op : BitVec 4} {nn : Byte} (hop : (fieldOp w).toNat = op.toNat) (hnn : fieldNN w = nn) :
    encRegByte op (fieldX w) nn = w := by
  have hlow : (fieldX w).bits ++ nn = fieldNNN w := by
    rw [← hnn]
    exact BitVec.extractLsb'_append_extractLsb'_eq_extractLsb' rfl
  rw [encRegByte, hlow]
  exact encAddr_of_fields hop

theorem encRegReg_of_fields {w : Word} {op n : BitVec 4} (hop : (fieldOp w).toNat = op.toNat) (hn : fieldN w = n) :
    encRegReg op (fieldX w) (fieldY w) n = w := by
  have hlow : (fieldY w).bits ++ n = fieldNN w := by
    rw [← hn]
    exact BitVec.extractLsb'_append_extractLsb'_eq_extractLsb' rfl
  rw [encRegReg, hlow]
  exact encRegByte_of_fields hop rfl

/-! ### decode and encode -/

/-- The table of R86, group by group. -/
def UnknownWord (w : Word) : Prop :=
  (fieldOp w = 0x0 ∧ w ≠ 0x00E0 ∧ w ≠ 0x00EE) ∨
  (fieldOp w = 0x5 ∧ fieldN w ≠ 0x0) ∨
  (fieldOp w = 0x8 ∧ fieldN w ∈ [0x8#4, 0x9#4, 0xA#4, 0xB#4, 0xC#4, 0xD#4, 0xF#4]) ∨
  (fieldOp w = 0x9 ∧ fieldN w ≠ 0x0) ∨
  (fieldOp w = 0xE ∧ fieldNN w ∉ [0x9E#8, 0xA1#8]) ∨
  (fieldOp w = 0xF ∧ fieldNN w ∉ [0x07#8, 0x0A#8, 0x15#8, 0x18#8, 0x1E#8, 0x33#8, 0x55#8, 0x65#8])

/-- A right answer of decode on `w`: an instruction encoded as `w`, or `UNKNOWN` with the raw word, which the table of R86 has. -/
def Answers (w : Word) : Decoded → Prop
  | .instr i => encode i = w
  | .unknown v => v = w ∧ UnknownWord w

theorem decodeGroup0_answers {w : Word} (hop : fieldOp w = 0x0) : Answers w (decodeGroup0 w) := by
  unfold decodeGroup0
  split_ifs with hcls hret
  · exact hcls.symm
  · exact hret.symm
  · exact ⟨rfl, .inl ⟨hop, hcls, hret⟩⟩

theorem decodeGroup8_answers {w : Word} (hop : fieldOp w = 0x8) : Answers w (decodeGroup8 w) := by
  have reassemble {n : BitVec 4} (hn : (fieldN w).toNat = n.toNat) : encRegReg 0x8 (fieldX w) (fieldY w) n = w :=
    encRegReg_of_fields (congrArg BitVec.toNat hop) (BitVec.eq_of_toNat_eq hn)
  have subopcodes : ∀ n : BitVec 4, n.toNat ∉ [0, 1, 2, 3, 4, 5, 6, 7, 14] →
    n ∈ [0x8#4, 0x9#4, 0xA#4, 0xB#4, 0xC#4, 0xD#4, 0xF#4] := by decide
  unfold decodeGroup8
  split
  case h_10 => exact ⟨rfl, .inr (.inr (.inl ⟨hop, subopcodes _ (by simp_all)⟩))⟩
  all_goals exact reassemble ‹_›

theorem decodeGroupE_answers {w : Word} (hop : fieldOp w = 0xE) : Answers w (decodeGroupE w) := by
  unfold decodeGroupE
  split_ifs
  case neg => exact ⟨rfl, .inr (.inr (.inr (.inr (.inl ⟨hop, by simp [*]⟩))))⟩
  all_goals exact encRegByte_of_fields (congrArg BitVec.toNat hop) ‹_›

theorem decodeGroupF_answers {w : Word} (hop : fieldOp w = 0xF) : Answers w (decodeGroupF w) := by
  unfold decodeGroupF
  split_ifs
  case neg => exact ⟨rfl, .inr (.inr (.inr (.inr (.inr ⟨hop, by simp [*]⟩))))⟩
  all_goals exact encRegByte_of_fields (congrArg BitVec.toNat hop) ‹_›

/-- Dispatch on the major opcode: each answer of decode is the right one. -/
theorem decode_answers (w : Word) : Answers w (decode w) := by
  have group {op : BitVec 4} (hop : (fieldOp w).toNat = op.toNat) : fieldOp w = op := BitVec.eq_of_toNat_eq hop
  unfold decode
  split
  case h_1 hop => exact decodeGroup0_answers (group hop)
  case h_2 hop | h_3 hop | h_11 hop | h_12 hop => exact encAddr_of_fields hop
  case h_4 hop | h_5 hop | h_7 hop | h_8 hop | h_13 hop => exact encRegByte_of_fields hop rfl
  case h_6 hop =>
    split_ifs with hn
    · exact encRegReg_of_fields hop hn
    · exact ⟨rfl, .inr (.inl ⟨group hop, hn⟩)⟩
  case h_9 hop => exact decodeGroup8_answers (group hop)
  case h_10 hop =>
    split_ifs with hn
    · exact encRegReg_of_fields hop hn
    · exact ⟨rfl, .inr (.inr (.inr (.inl ⟨group hop, hn⟩)))⟩
  case h_14 hop => exact encRegReg_of_fields hop rfl
  case h_15 hop => exact decodeGroupE_answers (group hop)
  case h_16 =>
    simp only [imp_false] at *
    exact decodeGroupF_answers (by bv_omega)

theorem encode_of_decode {w : Word} {i : Instr} (h : decode w = .instr i) : encode i = w := by
  simpa [h, Answers] using decode_answers w

theorem unknownWord_of_decode {w v : Word} (h : decode w = .unknown v) : v = w ∧ UnknownWord w := by
  simpa [h, Answers] using decode_answers w

theorem decode_encode : ∀ i : Instr, decode (encode i) = .instr i
  | .cls => Laws.RoundTrip.cls
  | .ret => Laws.RoundTrip.ret
  | .jp nnn => Laws.RoundTrip.jp nnn
  | .call nnn => Laws.RoundTrip.call nnn
  | .seByte x nn => Laws.RoundTrip.seByte x nn
  | .sneByte x nn => Laws.RoundTrip.sneByte x nn
  | .seReg x y => Laws.RoundTrip.seReg x y
  | .sneReg x y => Laws.RoundTrip.sneReg x y
  | .ldByte x nn => Laws.RoundTrip.ldByte x nn
  | .addByte x nn => Laws.RoundTrip.addByte x nn
  | .ldReg x y => Laws.RoundTrip.ldReg x y
  | .orReg x y => Laws.RoundTrip.orReg x y
  | .andReg x y => Laws.RoundTrip.andReg x y
  | .xorReg x y => Laws.RoundTrip.xorReg x y
  | .addReg x y => Laws.RoundTrip.addReg x y
  | .sub x y => Laws.RoundTrip.sub x y
  | .subn x y => Laws.RoundTrip.subn x y
  | .shr x y => Laws.RoundTrip.shr x y
  | .shl x y => Laws.RoundTrip.shl x y
  | .ldI nnn => Laws.RoundTrip.ldI nnn
  | .jpV0 nnn => Laws.RoundTrip.jpV0 nnn
  | .drw x y n => Laws.RoundTrip.drw x y n
  | .rnd x nn => Laws.RoundTrip.rnd x nn
  | .skp x => Laws.RoundTrip.skp x
  | .sknp x => Laws.RoundTrip.sknp x
  | .ldVxDt x => Laws.RoundTrip.ldVxDt x
  | .ldVxK x => Laws.RoundTrip.ldVxK x
  | .ldDtVx x => Laws.RoundTrip.ldDtVx x
  | .ldStVx x => Laws.RoundTrip.ldStVx x
  | .addI x => Laws.RoundTrip.addI x
  | .ldBVx x => Laws.RoundTrip.ldBVx x
  | .ldMemVx x => Laws.RoundTrip.ldMemVx x
  | .ldVxMem x => Laws.RoundTrip.ldVxMem x

/-- Settles O2: decode answers only an instruction encoded as the word, and every encoding decodes back. -/
theorem decodeAndEncodeAgree : Obligations.DecodeAndEncodeAgree := by
  unfold Obligations.DecodeAndEncodeAgree
  intro w i
  constructor
  · exact encode_of_decode
  · rintro rfl
    exact decode_encode i

/-- Settles O1, each word by evaluating decode on it. -/
theorem sampleWordsDecode : Obligations.SampleWordsDecode := by
  unfold Obligations.SampleWordsDecode
  decide

end Sys2Proof
end

section
/-! SUPPORT and PROOF. The opcode map (30_encoding.md R83, R85, R86): each instruction's encoding is covered by its row, no row covers a
word of the table of R86, and no two rows cover the same word. -/

namespace Sys2Proof.Machine

theorem covers_iff {r : OpcodeRow} {w : Word} : r.covers w = true ↔ w &&& r.mask = r.pattern := beq_iff_eq

/-! ### the row of an instruction covers its encoding -/

section
variable {a b : Nat} (p : BitVec a) {q q' m : BitVec b} (h : q &&& m = q')
include h

theorem append_and_keep : (p ++ q) &&& (BitVec.allOnes a ++ m) = p ++ q' := by
  rw [BitVec.and_append, BitVec.and_allOnes, h]

theorem append_and_drop : (p ++ q) &&& (0#a ++ m) = 0#a ++ q' := by
  rw [BitVec.and_append, BitVec.and_zero, h]

end

/-- A row that fixes the major opcode only. -/
theorem covers_op {r : OpcodeRow} {op : BitVec 4} {low : BitVec 12} (hmask : r.mask = BitVec.allOnes 4 ++ 0#12)
    (hpattern : r.pattern = op ++ 0#12) : r.covers (op ++ low) = true := by
  rw [covers_iff, hmask, hpattern]
  exact append_and_keep op BitVec.and_zero

/-- A row that fixes the major opcode and the low byte. -/
theorem covers_encRegByte {r : OpcodeRow} {op : BitVec 4} {x : Reg} {nn : Byte}
    (hmask : r.mask = BitVec.allOnes 4 ++ (0#4 ++ BitVec.allOnes 8)) (hpattern : r.pattern = op ++ (0#4 ++ nn)) :
    r.covers (encRegByte op x nn) = true := by
  rw [covers_iff, hmask, hpattern]
  exact append_and_keep op (append_and_drop x.bits BitVec.and_allOnes)

/-- A row that fixes the major opcode and the low nibble. -/
theorem covers_encRegReg {r : OpcodeRow} {op n : BitVec 4} {x y : Reg}
    (hmask : r.mask = BitVec.allOnes 4 ++ (0#4 ++ (0#4 ++ BitVec.allOnes 4)))
    (hpattern : r.pattern = op ++ (0#4 ++ (0#4 ++ n))) : r.covers (encRegReg op x y n) = true := by
  rw [covers_iff, hmask, hpattern]
  exact append_and_keep op (append_and_drop x.bits (append_and_drop y.bits BitVec.and_allOnes))

theorem opcodeRow_covers_encode : ∀ i : Instr, (opcodeRow i).covers (encode i) = true
  | .cls | .ret => rfl
  | .jp _ | .call _ | .ldI _ | .jpV0 _ | .seByte _ _ | .sneByte _ _ | .ldByte _ _ | .addByte _ _ | .rnd _ _ | .drw _ _ _ =>
    covers_op rfl rfl
  | .skp _ | .sknp _ | .ldVxDt _ | .ldVxK _ | .ldDtVx _ | .ldStVx _ | .addI _ | .ldBVx _ | .ldMemVx _ | .ldVxMem _ =>
    covers_encRegByte rfl rfl
  | .seReg _ _ | .sneReg _ _ | .ldReg _ _ | .orReg _ _ | .andReg _ _ | .xorReg _ _ | .addReg _ _ | .sub _ _ | .subn _ _
  | .shr _ _ | .shl _ _ => covers_encRegReg rfl rfl

theorem opcodeRow_covers_of_decode {w : Word} {i : Instr} (h : decode w = .instr i) : (opcodeRow i).covers w = true :=
  encode_of_decode h ▸ opcodeRow_covers_encode i

theorem opcodeRow_mem (i : Instr) : opcodeRow i ∈ opcodeMap := by
  cases i <;> simp [opcodeRow, opcodeMap]

/-! ### no two rows cover the same word -/

/-- Rows that cover one word agree where both fix a bit; the rows of R85 that do so are equal. -/
theorem eq_of_covers {r q : OpcodeRow} {w : Word} (hr : r ∈ opcodeMap) (hq : q ∈ opcodeMap) (hrw : r.covers w = true)
    (hqw : q.covers w = true) : r = q := by
  have conflict : ∀ r ∈ opcodeMap, ∀ q ∈ opcodeMap, r.pattern &&& q.mask = q.pattern &&& r.mask → r = q := by decide
  refine conflict r hr q hq ?_
  rw [← covers_iff.1 hrw, ← covers_iff.1 hqw]
  ac_rfl

/-! ### no row covers an unknown word -/

/-- A field that the row fixes has the row's value. -/
theorem field_of_covers {r : OpcodeRow} {w : Word} {start len : Nat} (h : r.covers w = true)
    (hmask : r.mask.extractLsb' start len = BitVec.allOnes len) :
    w.extractLsb' start len = r.pattern.extractLsb' start len := by
  rw [← covers_iff.1 h, BitVec.extractLsb'_and, hmask, BitVec.and_allOnes]

theorem fieldN_of_covers {r : OpcodeRow} {w : Word} (h : r.covers w = true) (hmask : fieldN r.mask = BitVec.allOnes 4) :
    fieldN w = fieldN r.pattern := field_of_covers h hmask

theorem fieldNN_of_covers {r : OpcodeRow} {w : Word} (h : r.covers w = true) (hmask : fieldNN r.mask = BitVec.allOnes 8) :
    fieldNN w = fieldNN r.pattern := field_of_covers h hmask

/-- In each group of R86 the rows fix the sub-opcode, to a value that the group's unknown words do not have. -/
theorem not_covers_of_unknownWord {r : OpcodeRow} {w : Word} (hw : UnknownWord w) (hr : r ∈ opcodeMap) : r.covers w = false := by
  rw [← Bool.not_eq_true]
  intro h
  have major : ∀ r ∈ opcodeMap, fieldOp r.mask = BitVec.allOnes 4 := by decide
  have hop : fieldOp w = fieldOp r.pattern := field_of_covers h (major r hr)
  have groups59 : ∀ r ∈ opcodeMap, fieldOp r.pattern = 0x5 ∨ fieldOp r.pattern = 0x9 →
    fieldN r.mask = BitVec.allOnes 4 ∧ fieldN r.pattern = 0x0 := by decide
  obtain ⟨hw, hcls, hret⟩ | ⟨hw, hn⟩ | ⟨hw, hn⟩ | ⟨hw, hn⟩ | ⟨hw, hnn⟩ | ⟨hw, hnn⟩ := hw <;> rw [hw] at hop
  · have group : ∀ r ∈ opcodeMap, 0x0 = fieldOp r.pattern →
      r.mask = BitVec.allOnes 16 ∧ (r.pattern = 0x00E0 ∨ r.pattern = 0x00EE) := by decide
    obtain ⟨hmask, hpattern⟩ := group r hr hop
    rw [← covers_iff.1 h, hmask, BitVec.and_allOnes] at hpattern
    exact hpattern.elim hcls hret
  · obtain ⟨hmask, hpattern⟩ := groups59 r hr (.inl hop.symm)
    exact hn ((fieldN_of_covers h hmask).trans hpattern)
  · have group : ∀ r ∈ opcodeMap, 0x8 = fieldOp r.pattern → fieldN r.mask = BitVec.allOnes 4 ∧
      fieldN r.pattern ∉ [0x8#4, 0x9#4, 0xA#4, 0xB#4, 0xC#4, 0xD#4, 0xF#4] := by decide
    obtain ⟨hmask, hpattern⟩ := group r hr hop
    exact hpattern (fieldN_of_covers h hmask ▸ hn)
  · obtain ⟨hmask, hpattern⟩ := groups59 r hr (.inr hop.symm)
    exact hn ((fieldN_of_covers h hmask).trans hpattern)
  · have group : ∀ r ∈ opcodeMap, 0xE = fieldOp r.pattern → fieldNN r.mask = BitVec.allOnes 8 ∧
      fieldNN r.pattern ∈ [0x9E#8, 0xA1#8] := by decide
    obtain ⟨hmask, hpattern⟩ := group r hr hop
    exact hnn (fieldNN_of_covers h hmask ▸ hpattern)
  · have group : ∀ r ∈ opcodeMap, 0xF = fieldOp r.pattern → fieldNN r.mask = BitVec.allOnes 8 ∧
      fieldNN r.pattern ∈ [0x07#8, 0x0A#8, 0x15#8, 0x18#8, 0x1E#8, 0x33#8, 0x55#8, 0x65#8] := by decide
    obtain ⟨hmask, hpattern⟩ := group r hr hop
    exact hnn (fieldNN_of_covers h hmask ▸ hpattern)

/-- Settles O3: an instruction's row covers its word, and rows that cover one word are equal; an unknown word is in the table of R86, which
no row covers. -/
theorem decodeFollowsTheOpcodeMap : Obligations.DecodeFollowsTheOpcodeMap := by
  unfold Obligations.DecodeFollowsTheOpcodeMap
  refine ⟨fun w i h => ?_, fun w v h => ?_, fun w => ?_⟩
  · have hrow := opcodeRow_covers_of_decode h
    exact ⟨opcodeRow_mem i, hrow, fun r hr hrw => eq_of_covers hr (opcodeRow_mem i) hrw hrow⟩
  · obtain ⟨hv, hw⟩ := unknownWord_of_decode h
    exact ⟨hv, fun r hr => not_covers_of_unknownWord hw hr⟩
  · have distinct : opcodeMap.Nodup := by decide
    exact distinct.imp_of_mem fun hr hq hne hboth => hne (eq_of_covers hr hq hboth.1 hboth.2)

/-- Settles O4: decode calls only words of the table unknown, and a word of the table cannot be an instruction's, whose row would cover
it. -/
theorem unknownWordsByGroup : Obligations.UnknownWordsByGroup := by
  unfold Obligations.UnknownWordsByGroup
  intro w
  constructor
  · exact fun h => (unknownWord_of_decode h).2
  · intro hw
    cases h : decode w with
    | instr i =>
      exact absurd (opcodeRow_covers_of_decode h) (by simp [not_covers_of_unknownWord hw (opcodeRow_mem i)])
    | unknown v => rw [(unknownWord_of_decode h).1]

end Sys2Proof.Machine
end

section
/-! SUPPORT and PROOF. The step cycle (30_encoding.md R80, R82): the step that runs a decoded word, the word placed by `withFetchWord`
(log 15), and the machine that is halted. -/

namespace Sys2Proof.Machine

/-! ### a step that runs a decoded word -/

/-- Both bytes in memory and decoded: the `RUNNING` step is the instruction, with `PC` advanced (R80). -/
theorem stepRunning_of_decode {s : State} {i : Instr} (hin : s.pc.toNat + 1 < s.cfg.memSize)
    (hdec : decode (wordOfBytes (s.byteAt s.pc.toNat) (s.byteAt (s.pc.toNat + 1))) = .instr i) :
    stepRunning s = exec i s.advance := by
  obtain ⟨hhigh, -⟩ | ⟨hlow, -⟩ | ⟨-, hread⟩ := s.memRead16_cases s.pc.toNat
  · omega
  · omega
  · simp [stepRunning, hread, hdec]

/-- The step the host asks for, said in the state before the request: the request is met with the same `PC`, memory and mode. -/
theorem step_asked_decoded {s t : State} {inp : StepInput} {i : Instr} (hask : s.Asked inp t) (hmode : s.mode = .running)
    (hin : s.pc.toNat + 1 < s.cfg.memSize)
    (hdec : decode (wordOfBytes (s.byteAt s.pc.toNat) (s.byteAt (s.pc.toNat + 1))) = .instr i) :
    step s = exec i (t.setPc (s.pc + 2)) := by
  obtain ⟨-, -, hpc, -, -, -, hmem, hcfg, -⟩ := Asked.frame hask
  have hbyte (a : Nat) : t.byteAt a = s.byteAt a := by simp [State.byteAt, hmem]
  rw [step_asked_running hask hmode, stepRunning_of_decode (by rwa [hpc, hcfg]) (by simpa only [hbyte, hpc] using hdec),
    State.advance_eq, hpc]

theorem asked_of_pending {s : State} {inp : StepInput} {rest : List HostAction} (h : s.pending = .step inp :: rest) :
    s.Asked inp ((s.setPending rest).setInput inp) :=
  ⟨_, by simp [State.nextRequest, h], rfl⟩

theorem asked_of_pending_nil {s : State} (h : s.pending = []) :
    s.Asked (Config.freeInput s.hostDraws) (((tickAll (Config.freeTicks s.hostDraws) s).setHostDraws (s.hostDraws + 1)).setInput
      (Config.freeInput s.hostDraws)) :=
  ⟨_, by simp [State.nextRequest, h], rfl⟩

/-- Settles O5: both requests are met with the program and `PC` as they were. -/
theorem stepRunsTheDecodedInstruction : Obligations.StepRunsTheDecodedInstruction := by
  unfold Obligations.StepRunsTheDecodedInstruction
  intro s i hmode hin hdec
  constructor
  · intro inp rest hp
    exact step_asked_decoded (asked_of_pending hp) hmode hin hdec
  · intro hp
    exact step_asked_decoded (asked_of_pending_nil hp) hmode hin hdec

/-! ### a placed word -/

theorem tableWord_toNat (w : Word) : tableWord 16 w.toNat = w := by
  rw [tableWord, Nat.mod_eq_of_lt w.isLt, BitVec.ofNat_toNat, BitVec.setWidth_eq]

@[simp] theorem State.placeWord_v (s : State) (w : Word) : (s.placeWord w).v = s.v := by simp [State.placeWord]
@[simp] theorem State.placeWord_i (s : State) (w : Word) : (s.placeWord w).i = s.i := by simp [State.placeWord]
@[simp] theorem State.placeWord_pc (s : State) (w : Word) : (s.placeWord w).pc = s.pc := by simp [State.placeWord]
@[simp] theorem State.placeWord_stack (s : State) (w : Word) : (s.placeWord w).stack = s.stack := by simp [State.placeWord]
@[simp] theorem State.placeWord_dt (s : State) (w : Word) : (s.placeWord w).dt = s.dt := by simp [State.placeWord]
@[simp] theorem State.placeWord_st (s : State) (w : Word) : (s.placeWord w).st = s.st := by simp [State.placeWord]
@[simp] theorem State.placeWord_acc (s : State) (w : Word) : (s.placeWord w).acc = s.acc := by simp [State.placeWord]
@[simp] theorem State.placeWord_fb (s : State) (w : Word) : (s.placeWord w).fb = s.fb := by simp [State.placeWord]
@[simp] theorem State.placeWord_cfg (s : State) (w : Word) : (s.placeWord w).cfg = s.cfg := by simp [State.placeWord]
@[simp] theorem State.placeWord_mode (s : State) (w : Word) : (s.placeWord w).mode = .running := by simp [State.placeWord]
@[simp] theorem State.placeWord_pending (s : State) (w : Word) :
    (s.placeWord w).pending = .step (Config.freeInput s.hostDraws) :: s.pending := by simp [State.placeWord]

theorem State.placeWord_byteAt (s : State) (w : Word) (a : Nat) :
    (s.placeWord w).byteAt a =
      if s.pc.toNat ≤ a ∧ a < s.pc.toNat + 2 then (bytesOfWord w).getD (a - s.pc.toNat) 0 else s.byteAt a :=
  s.byteAt_setMem_writeMany s.pc.toNat a (bytesOfWord w)

theorem State.placeWord_byteAt_other (s : State) (w : Word) {a : Nat} (hhigh : a ≠ s.pc.toNat) (hlow : a ≠ s.pc.toNat + 1) :
    (s.placeWord w).byteAt a = s.byteAt a :=
  (s.placeWord_byteAt w a).trans (if_neg (by omega))

/-- The two bytes at `PC`, high byte first, are the placed word. -/
theorem State.placeWord_fetch (s : State) (w : Word) :
    wordOfBytes ((s.placeWord w).byteAt s.pc.toNat) ((s.placeWord w).byteAt (s.pc.toNat + 1)) = w := by
  simp [placeWord_byteAt, bytesOfWord]

/-- Settles O6: the step is a decoded step from the placed state, which differs from `s` in the two bytes, the mode and the request. -/
theorem placedWordRunsNext : Obligations.PlacedWordRunsNext := by
  unfold Obligations.PlacedWordRunsNext
  intro s i hin
  rw [State.withFetchWord, tableWord_toNat]
  have hask := asked_of_pending (s.placeWord_pending (encode i))
  refine ⟨_, step_asked_decoded hask (s.placeWord_mode _) ?_ ?_, ?_⟩
  · rwa [State.placeWord_pc, State.placeWord_cfg]
  · rw [State.placeWord_pc, State.placeWord_fetch, decode_encode]
  · have hframe (a : Nat) := s.placeWord_byteAt_other (encode i) (a := a)
    simpa using hframe

/-! ### the halted machine -/

/-- Settles O11: the step the host asks for faults in `HALTED`; a queued tick writes the timers only. -/
theorem haltedHasNoStep : Obligations.HaltedHasNoStep := by
  unfold Obligations.HaltedHasNoStep
  intro s e hmode
  constructor
  · intro hnotick
    obtain ⟨n, rest, hp, -⟩ | ⟨inp, t, hask, hstep⟩ := step_cases s
    · exact absurd hp (hnotick n rest)
    · obtain ⟨-, -, -, -, -, htmode, -⟩ := Asked.frame hask
      rw [hstep, interpStep, htmode.trans hmode]
  · intro n rest hp
    exact ⟨_, step_tick hp, by simp⟩

end Sys2Proof.Machine
end

section
/-! SUPPORT and PROOF. The display family (40_display.md): the pixels a DRW flips, what a list of flips does to a grid, and the outcome
of CLS and of DRW. -/

namespace Sys2Proof.Machine

/-! ### one pixel, and where it is placed -/

/-- Settles O28: the pixel law of a flip, at the pixel named and at the others; off the grid the flip is the identity. -/
theorem flipPixelRule : Obligations.FlipPixelRule := by
  unfold Obligations.FlipPixelRule
  intro w h x y f hrows hcols
  have hpixel := pixel_flipPixel ⟨hrows, hcols⟩ x y
  constructor
  · rintro ⟨hx, hy⟩
    refine ⟨by simp [flipPixel, hx, hy], by simp [hpixel, hx, hy], fun p q hother => ?_⟩
    rw [hpixel, if_neg (by omega)]
  · exact fun hout => if_neg hout

/-- The three policies of `SPRITE_WRAP` (R104), coordinate by coordinate. -/
theorem place_eq (c : Config) (cx cy : Nat) :
    place c cx cy = (if c.spriteWrap = .clipXY then cx else cx % c.fbW, if c.spriteWrap = .wrapXY then cy % c.fbH else cy) := by
  cases h : c.spriteWrap <;> simp [place, h]

/-- Settles O30: the sprite's pixels row by row, each placed coordinate by coordinate. -/
theorem spritePixelsArePlaced : Obligations.SpritePixelsArePlaced := by
  unfold Obligations.SpritePixelsArePlaced
  rintro x y rows s x0 y0 rfl rfl
  simp only [drwPixels, spritePixels_eq_flatMap, setColumns, place_eq]

/-! ### a list of flips -/

section
variable {w h : Nat} {f : Framebuffer} {ps : List (Nat × Nat)}

theorem Framebuffer.pixel_off_grid (hf : Framebuffer.Sized w h f) {x y : Nat} (hout : ¬(x < w ∧ y < h)) :
    Framebuffer.pixel f x y = false := by
  by_cases hy : y < f.length
  · have hrow := hf.2 f[y] (List.getElem_mem hy)
    have hx : f[y].length ≤ x := by have := hf.1; omega
    simp [Framebuffer.pixel, hy, hx]
  · simp [Framebuffer.pixel, Nat.le_of_not_lt hy]

/-- The same flips once more undo themselves: each pixel is inverted an even number of times. -/
theorem flipAll_flipAll (hf : Framebuffer.Sized w h f) : (flipAll w h (flipAll w h f ps).1 ps).1 = f := by
  have hone := flipAll_sized hf ps
  have htwo := flipAll_sized hone ps
  refine Framebuffer.ext_pixel htwo hf fun p q => ?_
  by_cases hin : p < w ∧ q < h
  · rw [(flipAll_spec w h ps _ hone).1 p q hin.1 hin.2, (flipAll_spec w h ps f hf).1 p q hin.1 hin.2, Bool.xor_assoc,
      Bool.xor_self, Bool.xor_false]
  · rw [Framebuffer.pixel_off_grid htwo hin, Framebuffer.pixel_off_grid hf hin]

/-- Flips that name a set pixel of the grid collide, at the latest when they first name it. -/
theorem flipAll_collides (hf : Framebuffer.Sized w h f) {p q : Nat} (hmem : (p, q) ∈ ps) (hp : p < w) (hq : q < h)
    (hset : Framebuffer.pixel f p q = true) : (flipAll w h f ps).2 = true := by
  have hfirst : (ps.take (ps.idxOf (p, q))).count (p, q) = 0 :=
    List.count_eq_zero.2 (by simp [List.mem_take_iff_idxOf_lt hmem])
  exact (flipAll_spec w h ps f hf).2.2 ⟨_, p, q, List.getElem?_idxOf hmem, hp, hq, by simp [hset, hfirst]⟩

/-- Flips that never collide leave every pixel of the grid they name set: its last flip found it unset. -/
theorem pixel_flipAll_of_not_collided (hf : Framebuffer.Sized w h f) (hnone : (flipAll w h f ps).2 = false) {p q : Nat}
    (hmem : (p, q) ∈ ps) (hp : p < w) (hq : q < h) : Framebuffer.pixel (flipAll w h f ps).1 p q = true := by
  induction ps generalizing f with
  | nil => simp at hmem
  | cons a ps ih =>
    obtain ⟨hhere, hlater⟩ : (flipPixel w h f a.1 a.2).2 = false ∧ (flipAll w h (flipPixel w h f a.1 a.2).1 ps).2 = false := by
      simpa [flipAll] using hnone
    have hflip := flipPixel_sized hf a.1 a.2
    by_cases hlast : (p, q) ∈ ps
    · exact ih hflip hlater hlast
    · obtain rfl : (p, q) = a := (List.mem_cons.1 hmem).resolve_right hlast
      have hunset : Framebuffer.pixel f p q = false := by simpa [flipPixel, hp, hq] using hhere
      simp [flipAll, (flipAll_spec w h ps _ hflip).1 p q hp hq, List.count_eq_zero.2 hlast, pixel_flipPixel hf, hp, hq, hunset]

end

/-! ### the outcome of CLS and of DRW -/

theorem State.setFb_unchanged (s : State) (f : Framebuffer) : Unchanged { fb := true } s (s.setFb f) := by
  constructor <;> simp

/-- Settles O29: the clear grid has the size of the framebuffer and no pixel set. -/
theorem clsClearsTheFramebuffer : Obligations.ClsClearsTheFramebuffer := by
  unfold Obligations.ClsClearsTheFramebuffer
  refine ⟨decode_encode .cls, fun s => ?_⟩
  obtain ⟨hrows, hcols⟩ := Framebuffer.clear_sized s.cfg.fbW s.cfg.fbH
  exact ⟨_, rfl, s.setFb_unchanged _, hrows, hcols, Framebuffer.pixel_clear _ _⟩

/-- The pixels `DRW Vx, Vy, n` flips in `s`: those of the sprite whose `n` bytes stand from `I` on. -/
def State.spriteAt (s : State) (x y : Reg) (n : BitVec 4) : List (Nat × Nat) :=
  drwPixels x y ((List.range n.toNat).map (fun k => s.byteAt (s.i.toNat + k))) s

/-- The grid and the collision flag after those flips. -/
def State.drawn (s : State) (x y : Reg) (n : BitVec 4) : Framebuffer × Bool :=
  flipAll s.cfg.fbW s.cfg.fbH s.fb (s.spriteAt x y n)

/-- A DRW whose sprite lies in memory draws it, leaves the collision flag in `VF`, and changes nothing else (R103). -/
theorem exec_drw_inside (x y : Reg) {n : BitVec 4} {s : State} (hin : ∀ k < n.toNat, s.i.toNat + k < s.cfg.memSize) :
    ∃ t, exec (.drw x y n) s = .next t ∧ Unchanged { regs := [Reg.vF], fb := true } s t ∧
      t.fb = (s.drawn x y n).1 ∧ t.reg Reg.vF = flagByte (s.drawn x y n).2 := by
  refine ⟨(s.setFb (s.drawn x y n).1).writeReg Reg.vF (flagByte (s.drawn x y n).2), ?_, ?_, rfl, State.reg_writeReg_same ..⟩
  · simp [exec, execDrw, State.memRead_inside (access_inside hin), State.readMany_eq_map, State.drawn, State.spriteAt]
  · exact { State.writeReg_unchanged (s.setFb _) Reg.vF _ with fb := nofun }

/-- After a DRW that kept `V[X]` and `V[Y]` the same DRW flips the same pixels. -/
theorem Unchanged.spriteAt_eq {s t : State} (hframe : Unchanged { regs := [Reg.vF], fb := true } s t) {x y : Reg} (n : BitVec 4)
    (hx : t.reg x = s.reg x) (hy : t.reg y = s.reg y) : t.spriteAt x y n = s.spriteAt x y n := by
  simp [State.spriteAt, drwPixels, hx, hy, hframe.cfg, hframe.i, hframe.mem]

theorem flagByte_eq_zero {b : Bool} : flagByte b = 0x00 ↔ b = false := by cases b <;> decide

/-- Settles O31: the drawing is a list of flips, whose parity law and collision law are `flipAll_spec`. -/
theorem drwXorsTheSprite : Obligations.DrwXorsTheSprite := by
  unfold Obligations.DrwXorsTheSprite
  intro x y n s hinv hin
  have hfb := hinv.data.fb_sized
  obtain ⟨hrows, hcols⟩ := flipAll_sized hfb (s.spriteAt x y n)
  obtain ⟨hpixels, hflag⟩ := flipAll_spec s.cfg.fbW s.cfg.fbH (s.spriteAt x y n) s.fb hfb
  obtain ⟨t, hexec, hframe, hdrawn, hvf⟩ := exec_drw_inside x y hin
  refine ⟨t, hexec, hframe, hdrawn ▸ hrows, hdrawn ▸ hcols, ?_⟩
  rintro ps rfl
  rw [hdrawn, hvf]
  refine ⟨hpixels, fun hcollides => congrArg flagByte (hflag.2 hcollides), fun hnone => ?_⟩
  refine flagByte_eq_zero.2 (Bool.eq_false_iff.2 fun hset => ?_)
  obtain ⟨j, p, q, hj, hp, hq, hmet⟩ := hflag.1 hset
  exact Bool.false_ne_true ((hnone j p q hj hp hq).symm.trans hmet)

/-- Settles O32: the read of the sprite fails at its first byte outside memory, before any flip. -/
theorem drwBeyondMemoryHalts : Obligations.DrwBeyondMemoryHalts := by
  unfold Obligations.DrwBeyondMemoryHalts
  intro x y n s k hk hout hfirst
  have hread := State.memRead_outside (firstOut_of_first_outside hk hout hfirst)
  have hraise : exec (.drw x y n) s = raise (.outOfBounds (s.i.toNat + k)) s.instrAddr s := by simp [exec, execDrw, hread]
  exact hraise ▸ raise_haltedAt _ _ s

/-- Settles O33: the second DRW flips the same pixels of the grid the first one left, so the flips undo themselves; where the first
never collided they meet a pixel that it set. -/
theorem drawingTwiceRestores : Obligations.DrawingTwiceRestores := by
  unfold Obligations.DrawingTwiceRestores
  intro x y n s hinv hin
  have hfb := hinv.data.fb_sized
  obtain ⟨t, hexec, hframe, hdrawn, hvf⟩ := exec_drw_inside x y hin
  refine ⟨t, hexec, fun hx hy => ?_⟩
  obtain ⟨u, hexec', -, hdrawn', hvf'⟩ := exec_drw_inside x y (n := n) (s := t) (by rwa [hframe.i rfl, hframe.cfg])
  have hagain : t.drawn x y n = flipAll s.cfg.fbW s.cfg.fbH (s.drawn x y n).1 (s.spriteAt x y n) := by
    rw [State.drawn, hframe.cfg, hdrawn, hframe.spriteAt_eq n hx hy]
  refine ⟨u, hexec', ?_⟩
  rw [hdrawn', hvf', hvf, hagain]
  refine ⟨flipAll_flipAll hfb, ?_⟩
  rintro hzero ⟨⟨p, q⟩, hmem, hp, hq⟩
  have hset := pixel_flipAll_of_not_collided hfb (flagByte_eq_zero.1 hzero) hmem hp hq
  exact congrArg flagByte (flipAll_collides (flipAll_sized hfb _) hmem hp hq hset)

end Sys2Proof.Machine
end

section
/-! SUPPORT and PROOF. The control-transfer family (41_control.md): where a skip and a computed jump leave `PC`, and the outcome of each
instruction, by its inversion. -/

namespace Sys2Proof.Machine

/-- `A + 2`, said of the state an instruction is found in (10_state.md R25). -/
theorem State.instrAddr_add_two (s : State) : s.instrAddr + 2 = s.pc := BitVec.sub_add_cancel s.pc 2

/-! ### skips -/

/-- A skip on the condition `p` leaves `PC` at `A + 4` or at `A + 2`, and changes nothing else (10_state.md R26). -/
theorem State.skipIf_skips (s : State) {b : Bool} {p : Prop} [Decidable p] (hb : b = true ↔ p) :
    Unchanged { pc := true } s (s.skipIf b) ∧ (s.skipIf b).pc = if p then s.instrAddr + 4 else s.instrAddr + 2 := by
  have hskip : s.pc + 2 = s.instrAddr + 4 := by rw [← s.instrAddr_add_two, BitVec.add_assoc]; rfl
  refine ⟨s.skipIf_unchanged b, ?_⟩
  simp only [State.skipIf_pc, hb, hskip, s.instrAddr_add_two]

/-- Settles O37: each skip is `skipIf` on the comparison of its rule. -/
theorem skipsCompareAndSkip : Obligations.SkipsCompareAndSkip := by
  unfold Obligations.SkipsCompareAndSkip
  intro x y nn
  refine ⟨⟨decode_encode (.seByte x nn), decode_encode (.sneByte x nn), decode_encode (.seReg x y), decode_encode (.sneReg x y)⟩,
    fun s => ⟨?_, ?_, ?_, ?_⟩⟩
  · exact ⟨_, rfl, s.skipIf_skips beq_iff_eq⟩
  · exact ⟨_, rfl, s.skipIf_skips bne_iff_ne⟩
  · exact ⟨_, rfl, s.skipIf_skips beq_iff_eq⟩
  · exact ⟨_, rfl, s.skipIf_skips bne_iff_ne⟩

/-! ### jumps -/

theorem zext16_address_toNat (nnn : BitVec 12) : (zext16 nnn).toNat = nnn.toNat :=
  BitVec.toNat_setWidth_of_le (by decide)

/-- The sum of an address and a byte does not wrap: it is at most 0x10FE (41_control.md R127). -/
theorem zext16_add_offset_toNat (nnn : BitVec 12) (b : Byte) : (zext16 nnn + zext16 b).toNat = nnn.toNat + b.toNat := by
  have hnnn := nnn.isLt
  have hb := b.isLt
  simp only [BitVec.toNat_add, BitVec.toNat_setWidth]
  omega

theorem State.jumpOffset_offV0 {s : State} (h : s.cfg.jumpOffsetReg = .offV0) (nnn : BitVec 12) :
    s.jumpOffset nnn = s.reg 0 := by
  rw [State.jumpOffset, h]

/-- Under `OFF_VX` the offset register is the top nibble of the address (41_control.md R127). -/
theorem State.jumpOffset_offVx {s : State} (h : s.cfg.jumpOffsetReg = .offVx) {nnn : BitVec 12} {x : Reg}
    (hx : x.val = nnn.toNat / 256) : s.jumpOffset nnn = s.reg x := by
  have hnibble : (nnn.extractLsb' 8 4).toFin = x := by
    apply Fin.ext
    have hnnn := nnn.isLt
    simp only [BitVec.val_toFin, BitVec.extractLsb'_toNat, Nat.shiftRight_eq_div_pow]
    omega
  rw [State.jumpOffset, h, ← hnibble]

/-- Settles O38: the sum does not wrap, and its offset is the register the parameter selects. -/
theorem jpV0AddsTheOffset : Obligations.JpV0AddsTheOffset := by
  unfold Obligations.JpV0AddsTheOffset
  refine fun nnn => ⟨decode_encode (.jpV0 nnn), fun s => ?_⟩
  have hsum := zext16_add_offset_toNat nnn (s.jumpOffset nnn)
  refine ⟨_, rfl, s.setPc_unchanged _, fun hcfg => ?_, fun hcfg x hx => ?_⟩
  · rw [← State.jumpOffset_offV0 hcfg nnn]
    exact hsum
  · rw [← State.jumpOffset_offVx hcfg hx]
    exact hsum

/-- Settles O35: the jump is one write of `PC`. -/
theorem jpSetsPc : Obligations.JpSetsPc := by
  unfold Obligations.JpSetsPc
  exact fun nnn => ⟨decode_encode (.jp nnn), fun s => ⟨_, rfl, zext16_address_toNat nnn, s.setPc_unchanged _⟩⟩

/-! ### calls and returns -/

/-- An outcome that raises an error is the halted state of that error (00_scope.md R13). -/
theorem haltedAt_of_raise {r : Result} {k : ErrorKind} {a : Word} {s : State} (h : r = raise k a s) :
    ∃ t, r = .next t ∧ HaltedAt s t k a :=
  h ▸ raise_haltedAt k a s

theorem State.setStack_setPc_unchanged (s : State) (l : List Word) (w : Word) :
    Unchanged { pc := true, stack := true } s ((s.setStack l).setPc w) := by
  constructor <;> simp

/-- Settles O34: the two cases of RET are those of its inversion. -/
theorem retPopsOrUnderflows : Obligations.RetPopsOrUnderflows := by
  unfold Obligations.RetPopsOrUnderflows
  refine ⟨decode_encode .ret, fun s => ?_⟩
  obtain ⟨hempty, hraise⟩ | ⟨a, rest, hcons, hpop⟩ := execRet_cases s
  · exact ⟨fun a rest hcons => absurd (hcons.symm.trans hempty) (List.cons_ne_nil a rest), fun _ => haltedAt_of_raise hraise⟩
  · refine ⟨fun b l hstack => ?_, fun hempty => absurd (hcons.symm.trans hempty) (List.cons_ne_nil a rest)⟩
    obtain ⟨rfl, rfl⟩ := List.cons.inj (hcons.symm.trans hstack)
    exact ⟨_, hpop, rfl, rfl, s.setStack_setPc_unchanged _ _⟩

/-- Settles O36: the two cases of CALL are those of its inversion; the `PC` it pushes is `A + 2`. -/
theorem callPushesOrOverflows : Obligations.CallPushesOrOverflows := by
  unfold Obligations.CallPushesOrOverflows
  refine fun nnn => ⟨decode_encode (.call nnn), fun s => ?_⟩
  obtain ⟨hfull, hraise⟩ | ⟨hroom, hpush⟩ := execCall_cases nnn s
  · exact ⟨fun hroom => absurd hfull hroom, fun _ => haltedAt_of_raise hraise⟩
  · refine ⟨fun _ => ⟨_, hpush, ?_, zext16_address_toNat nnn, s.setStack_setPc_unchanged _ _⟩, fun hfull => absurd hfull hroom⟩
    exact congrArg (· :: s.stack) s.instrAddr_add_two.symm

end Sys2Proof.Machine
end

section
/-! SUPPORT and PROOF. The register and arithmetic family (42_alu.md): an instruction is one register write, or one write of a result and
a flag; what each leaves is said once, and an instruction adds the value of its result and of its flag. -/

namespace Sys2Proof.Machine

/-! ### one register write -/

theorem State.writeReg_outcome (s : State) (x : Reg) (b : Byte) :
    (s.writeReg x b).reg x = b ∧ Unchanged { regs := [x] } s (s.writeReg x b) :=
  ⟨s.reg_writeReg_same x b, s.writeReg_unchanged x b⟩

/-- Settles O39: the register write of the sum of two bytes. -/
theorem addByteWrapsWithoutFlag : Obligations.AddByteWrapsWithoutFlag := by
  unfold Obligations.AddByteWrapsWithoutFlag
  refine fun x nn => ⟨decode_encode (.addByte x nn), fun s => ?_⟩
  obtain ⟨hsum, hframe⟩ := s.writeReg_outcome x (s.reg x + nn)
  exact ⟨_, rfl, by rw [hsum, BitVec.toNat_add], hframe⟩

/-- Settles O40: each of the five is one register write. -/
theorem plainRegisterWrites : Obligations.PlainRegisterWrites := by
  unfold Obligations.PlainRegisterWrites
  intro x y nn
  refine ⟨⟨decode_encode (.ldByte x nn), decode_encode (.ldReg x y), decode_encode (.orReg x y), decode_encode (.andReg x y),
    decode_encode (.xorReg x y)⟩, fun s => ⟨?_, ?_, ?_, ?_, ?_⟩⟩
  all_goals exact ⟨_, rfl, s.writeReg_outcome x _⟩

/-- Settles O44: the register write of the latched random byte, masked. -/
theorem rndMasksTheRandomByte : Obligations.RndMasksTheRandomByte := by
  unfold Obligations.RndMasksTheRandomByte
  exact fun x nn => ⟨decode_encode (.rnd x nn), fun s => ⟨_, rfl, s.writeReg_outcome x _⟩⟩

/-! ### a result and a flag (R151) -/

section
variable (s : State) (x : Reg) {r : Byte} {b : Bool} (last : Bool)

/-- `write2` leaves the result and the flag; in `VF` as destination it leaves the one written last. -/
theorem State.write2_outcome {res flag : Byte} (hres : res = r) (hflag : flag = flagByte b) :
    (x ≠ Reg.vF → (s.write2 x r b last).reg x = res ∧ (s.write2 x r b last).reg Reg.vF = flag) ∧
    (x = Reg.vF → (s.write2 x r b last).reg Reg.vF = if last then flag else res) := by
  subst hres hflag
  constructor
  · intro hx
    simp [State.reg_write2, hx, hx.symm]
  · rintro rfl
    simp [State.reg_write2]

/-- The same in numbers. -/
theorem State.write2_outcome_toNat {res flag : Nat} (hres : r.toNat = res) (hflag : (flagByte b).toNat = flag) :
    (x ≠ Reg.vF → ((s.write2 x r b last).reg x).toNat = res ∧ ((s.write2 x r b last).reg Reg.vF).toNat = flag) ∧
    (x = Reg.vF → ((s.write2 x r b last).reg Reg.vF).toNat = if last then flag else res) := by
  subst hres hflag
  obtain ⟨hother, hvF⟩ := s.write2_outcome x last (r := r) (b := b) rfl rfl
  refine ⟨fun hx => (hother hx).imp (congrArg _) (congrArg _), fun hx => ?_⟩
  rw [hvF hx, apply_ite BitVec.toNat]

end

/-! ### sums and differences (R158 to R160) -/

theorem flagByte_decide (p : Prop) [Decidable p] : flagByte (decide p) = if p then 0x01 else 0x00 := by
  simp [flagByte]

theorem byte_add_eq_ofNat (a b : Byte) : BitVec.ofNat 8 (a.toNat + b.toNat) = a + b := by
  simp [BitVec.ofNat_add]

theorem byte_sub_eq_ofInt (a b : Byte) : BitVec.ofInt 8 (a.toNat - b.toNat : Int) = a - b := by
  simp [Int.sub_eq_add_neg, BitVec.ofInt_add, BitVec.ofInt_neg, BitVec.sub_eq_add_neg]

/-- Settles O41: the result is the sum of the bytes, the flag its carry. -/
theorem addWritesSumAndCarry : Obligations.AddWritesSumAndCarry := by
  unfold Obligations.AddWritesSumAndCarry
  refine fun x y => ⟨decode_encode (.addReg x y), fun s => ⟨_, rfl, s.write2_unchanged .., fun res flag hres hflag => ?_⟩⟩
  exact s.write2_outcome x _ (hres.trans (byte_add_eq_ofNat ..)) (hflag.trans (flagByte_decide _).symm)

/-- Settles O42: the result is the difference of the bytes, the flag the comparison of minuend and subtrahend. -/
theorem subtractionsWriteDifferenceAndNotBorrow : Obligations.SubtractionsWriteDifferenceAndNotBorrow := by
  unfold Obligations.SubtractionsWriteDifferenceAndNotBorrow
  refine fun x y => ⟨⟨decode_encode (.sub x y), decode_encode (.subn x y)⟩, fun s => ⟨?_, ?_⟩⟩
  all_goals
    refine ⟨_, rfl, s.write2_unchanged .., fun res flag hres hflag => ?_⟩
    exact s.write2_outcome x _ (hres.trans (byte_sub_eq_ofInt ..)) (hflag.trans (flagByte_decide _).symm)

/-! ### shifts (R161, R162) -/

theorem State.shiftOperand_eq (s : State) (x y : Reg) :
    s.shiftOperand x y = if s.cfg.shiftSource = .srcVy then s.reg y else s.reg x := by
  cases h : s.cfg.shiftSource <;> simp [State.shiftOperand, h]

theorem flagByte_toNat (b : Bool) : (flagByte b).toNat = b.toNat := by cases b <;> rfl

theorem shr_one_toNat (src : Byte) : (src >>> 1).toNat = src.toNat / 2 := by
  rw [BitVec.toNat_ushiftRight, Nat.shiftRight_eq_div_pow, pow_one]

theorem shl_one_toNat (src : Byte) : (src <<< 1).toNat = 2 * src.toNat % 256 := by
  rw [BitVec.toNat_shiftLeft, Nat.shiftLeft_eq, pow_one, Nat.mul_comm]

/-- The bit a right shift loses is the remainder. -/
theorem shrFlag_toNat (src : Byte) : (flagByte (shrFlag src)).toNat = src.toNat % 2 := by
  rw [flagByte_toNat, shrFlag, BitVec.getLsbD, Nat.toNat_testBit, pow_zero, Nat.div_one]

/-- The bit a left shift loses is the upper half of the byte's range. -/
theorem shlFlag_toNat (src : Byte) : (flagByte (shlFlag src)).toNat = src.toNat / 128 := by
  have hsrc := src.isLt
  rw [flagByte_toNat, shlFlag, BitVec.getLsbD, Nat.toNat_testBit]
  omega

/-- Settles O43: the result and the flag are those of the operand that the parameter selects. -/
theorem shiftsMoveOneBit : Obligations.ShiftsMoveOneBit := by
  unfold Obligations.ShiftsMoveOneBit
  refine fun x y => ⟨⟨decode_encode (.shr x y), decode_encode (.shl x y)⟩, fun s src hsrc => ?_⟩
  obtain rfl : src = (s.shiftOperand x y).toNat := by rw [hsrc, State.shiftOperand_eq]
  constructor
  · exact ⟨_, rfl, s.write2_unchanged .., s.write2_outcome_toNat x _ (shr_one_toNat _) (shrFlag_toNat _)⟩
  · exact ⟨_, rfl, s.write2_unchanged .., s.write2_outcome_toNat x _ (shl_one_toNat _) (shlFlag_toNat _)⟩

end Sys2Proof.Machine
end

section
/-! SUPPORT and PROOF. The index register and memory family (43_index_memory.md): what each access at `I` leaves in memory, in the
registers and in `I`, and the outcome of each instruction, by its inversion. -/

namespace Sys2Proof.Machine

/-! ### the index register -/

theorem State.setI_unchanged (s : State) (w : Word) : Unchanged { i := true } s (s.setI w) := by
  constructor <;> simp

/-- Settles O45: the instruction is one write of `I`. -/
theorem ldISetsTheIndex : Obligations.LdISetsTheIndex := by
  unfold Obligations.LdISetsTheIndex
  exact fun nnn => ⟨decode_encode (.ldI nnn), fun s => ⟨_, rfl, zext16_address_toNat nnn, s.setI_unchanged _⟩⟩

/-- Settles O46: the two cases of ADD I are those of its inversion; a sum of 16 bits is not wrapped. -/
theorem addIAddsOrOverflows : Obligations.AddIAddsOrOverflows := by
  unfold Obligations.AddIAddsOrOverflows
  refine fun x => ⟨decode_encode (.addI x), fun s => ?_⟩
  obtain ⟨hover, hraise⟩ | ⟨hfits, hadd⟩ := execAddI_cases x s
  · exact ⟨fun hfits => absurd hover (Nat.not_lt.2 hfits), fun _ => haltedAt_of_raise hraise⟩
  · refine ⟨fun _ => ⟨_, hadd, ?_, s.setI_unchanged _⟩, fun hover => absurd hover (Nat.not_lt.2 hfits)⟩
    rw [State.setI_i, BitVec.toNat_ofNat, Nat.mod_eq_of_lt (Nat.lt_succ_of_le hfits)]

/-! ### an access of several bytes at `I` -/

/-- The two cases of an inversion of an access of `n` bytes at `I`, selected by the addresses: it completes when all lie in memory, and
raises `OutOfBounds` with the first that does not (20_memory.md R52, R54). -/
theorem access_outcome {s t : State} {r : Result} {n : Nat}
    (h : (∃ a, firstOut s.cfg.memSize s.i.toNat n = some a ∧ r = raise (.outOfBounds a) s.instrAddr s) ∨
      (s.i.toNat + n ≤ s.cfg.memSize ∧ r = .next t)) :
    (s.i.toNat + n ≤ s.cfg.memSize → r = .next t) ∧
    (∀ k < n, s.cfg.memSize ≤ s.i.toNat + k → (∀ j < k, s.i.toNat + j < s.cfg.memSize) →
      ∃ u, r = .next u ∧ HaltedAt s u (.outOfBounds (s.i.toNat + k)) s.instrAddr) := by
  obtain ⟨a, ha, hraise⟩ | ⟨hin, hnext⟩ := h
  · refine ⟨fun hin => ?_, fun k hk hout hfirst => ?_⟩
    · cases ha.symm.trans (firstOut_eq_none.2 (.inr hin))
    · cases ha.symm.trans (firstOut_of_first_outside hk hout hfirst)
      exact haltedAt_of_raise hraise
  · exact ⟨fun _ => hnext, fun k hk hout _ => by omega⟩

theorem State.byteAt_stored (s : State) (a : Nat) {bytes : List Byte} {k : Nat} (hk : k < bytes.length) :
    (s.setMem (Memory.writeMany s.mem a bytes)).byteAt (a + k) = bytes.getD k 0 := by
  rw [State.byteAt_setMem_writeMany, if_pos ⟨Nat.le_add_right a k, Nat.add_lt_add_left hk a⟩, Nat.add_sub_cancel_left]

/-! ### decimal digits (R192, R193) -/

/-- The three bytes of `t` at `a` are the decimal digits of `d`. -/
def State.HoldsDigits (t : State) (a : Nat) (d : Byte) : Prop :=
  (t.byteAt a).toNat = d.toNat / 100 ∧ (t.byteAt (a + 1)).toNat = d.toNat / 10 % 10 ∧ (t.byteAt (a + 2)).toNat = d.toNat % 10

/-- The bytes LD B writes hold the digits: no digit exceeds a byte, so none is reduced (43_index_memory.md R192). -/
theorem State.holdsDigits_stored (s : State) (a : Nat) (d : Byte) :
    (s.setMem (Memory.writeMany s.mem a (bcdDigits d))).HoldsDigits a d := by
  have hd := d.isLt
  have hstored {k n : Nat} (hk : k < 3) (hn : n < 256) (hdigit : (bcdDigits d).getD k 0 = BitVec.ofNat 8 n) :
      ((s.setMem (Memory.writeMany s.mem a (bcdDigits d))).byteAt (a + k)).toNat = n := by
    rw [s.byteAt_stored a hk, hdigit, BitVec.toNat_ofNat, Nat.mod_eq_of_lt hn]
  exact ⟨hstored (k := 0) (by decide) (by omega) rfl, hstored (k := 1) (by decide) (by omega) rfl,
    hstored (k := 2) (by decide) (by omega) rfl⟩

/-- Settles O47: the three bytes written are the digits; otherwise the write fails at its first address outside memory. -/
theorem ldBStoresTheDigits : Obligations.LdBStoresTheDigits := by
  unfold Obligations.LdBStoresTheDigits
  refine fun x => ⟨decode_encode (.ldBVx x), fun s => ?_⟩
  obtain ⟨hstore, hhalt⟩ := access_outcome (execLdBVx_cases x s)
  obtain ⟨hhundreds, htens, hunits⟩ := s.holdsDigits_stored s.i.toNat (s.reg x)
  exact ⟨fun hin => ⟨_, hstore hin, hhundreds, htens, hunits, s.setMem_writeMany_unchanged s.i.toNat (bcdDigits (s.reg x))⟩, hhalt⟩

/-- Settles O48: an LD B that completes has stored the digits of a byte; one that raises an error halts, so it changes the mode of a
live machine. -/
theorem bcdDigitsMakeTheValue : Obligations.BcdDigitsMakeTheValue := by
  unfold Obligations.BcdDigitsMakeTheValue
  intro x s t hexec hmode hlive
  obtain ⟨a, -, hraise⟩ | ⟨-, hstore⟩ := execLdBVx_cases x s
  · cases hexec.symm.trans hraise
    exact absurd hmode.symm (hlive _)
  · cases hexec.symm.trans hstore
    obtain ⟨hhundreds, htens, hunits⟩ := s.holdsDigits_stored s.i.toNat (s.reg x)
    have hbyte := (s.reg x).isLt
    omega

/-! ### registers stored and loaded (R194, R195) -/

theorem State.bumpI_i_toNat (s : State) (x : Reg) :
    (s.bumpI x).i.toNat = if s.cfg.loadStoreIncrementsI then (s.i.toNat + x.val + 1) % 0x10000 else s.i.toNat := by
  rw [State.bumpI_i, apply_ite BitVec.toNat, BitVec.toNat_ofNat]

/-- Moving `I` on adds `I` to what may have changed. -/
theorem Unchanged.bumpI {w : Touch} {s t : State} (h : Unchanged w s t) (x : Reg) :
    Unchanged { w with i := true } s (t.bumpI x) := by
  unfold State.bumpI
  split
  · exact { h with i := nofun }
  · exact { h with i := nofun }

/-- Settles O49: byte `r` written is `V[r]`; otherwise the write fails at its first address outside memory. -/
theorem registerDumpStores : Obligations.RegisterDumpStores := by
  unfold Obligations.RegisterDumpStores
  refine fun x => ⟨decode_encode (.ldMemVx x), fun s => ?_⟩
  obtain ⟨hstore, hhalt⟩ := access_outcome (execLdMemVx_cases x s)
  refine ⟨fun hin => ⟨_, hstore hin, fun r hr => ?_, State.bumpI_i_toNat _ x, ?_⟩, fun k hk => hhalt k (Nat.lt_succ_of_le hk)⟩
  · have hlen : r.val < (s.regsUpTo x).length := by simpa using Nat.lt_succ_of_le hr
    rw [State.bumpI_byteAt, s.byteAt_stored _ hlen, s.regsUpTo_getD x r hr]
  · simpa using (s.setMem_writeMany_unchanged s.i.toNat (s.regsUpTo x)).bumpI x

theorem State.setV_loadRegs_unchanged (s : State) {bytes : List Byte} {x : Reg} (hlen : bytes.length = x.val + 1) :
    Unchanged { regs := (List.finRange 16).filter (fun r => decide (r ≤ x)) } s (s.setV (loadRegs s.v 0 bytes)) := by
  constructor
  case regs => exact fun r hr => loadRegs_get_above s.v hlen hr
  all_goals simp

/-- A load from `a` on leaves in register `q`, of those loaded, the byte at `a + q`. -/
theorem loadRegs_readMany_get (s : State) (v : Vector Byte 16) (a : Nat) {n : Nat} {q : Reg} (hq : q.val < n) :
    (loadRegs v 0 (Memory.readMany s.mem a n)).get q = s.byteAt (a + q.val) := by
  rw [loadRegs_get, if_pos ⟨Nat.zero_le _, by simpa using hq⟩, List.getD_eq_getElem?_getD, Nat.sub_zero, Memory.readMany_get _ _ _ _ hq]
  rfl

/-- Settles O50: register `r` loaded is byte `r`; otherwise the read fails at its first address outside memory. -/
theorem registerLoadLoads : Obligations.RegisterLoadLoads := by
  unfold Obligations.RegisterLoadLoads
  refine fun x => ⟨decode_encode (.ldVxMem x), fun s => ?_⟩
  obtain ⟨hload, hhalt⟩ := access_outcome (execLdVxMem_cases x s)
  refine ⟨fun hin => ⟨_, hload hin, fun r hr => ?_, State.bumpI_i_toNat _ x, ?_⟩, fun k hk => hhalt k (Nat.lt_succ_of_le hk)⟩
  · rw [State.bumpI_reg]
    exact loadRegs_readMany_get s s.v _ (Nat.lt_succ_of_le hr)
  · exact (s.setV_loadRegs_unchanged (Memory.readMany_length ..)).bumpI x

/-- Settles O51: the load reads the bytes the store left, which a change of `I` and of the registers keeps. -/
theorem loadUndoesStore : Obligations.LoadUndoesStore := by
  unfold Obligations.LoadUndoesStore
  intro x s v hin
  obtain ⟨t, hstore, hbytes, -, hframe⟩ := ((registerDumpStores x).2 s).1 hin
  have hin' : s.i.toNat + x.val < t.cfg.memSize := hframe.cfg ▸ hin
  obtain ⟨u, hload, hregs, -, -⟩ := ((registerLoadLoads x).2 ((t.setI s.i).setV v)).1 hin'
  exact ⟨t, u, hstore, hload, fun r hr => (hregs r hr).trans (hbytes r hr)⟩

end Sys2Proof.Machine
end

section
/-! SUPPORT and PROOF. The key and timer instruction family (44_timer_input.md): the key queries, the timer moves, LD Vx, K, and the poll
of mode `WAITING(x)`, which is LD Vx, K fetched again. -/

namespace Sys2Proof.Machine

/-! ### key queries (R210 to R212) -/

/-- The two cases of an inversion of a key query, selected by the register: a key is queried for the condition `p`, a value above 15
raises `KeyOutOfRange`. -/
theorem keyQuery_outcome {x : Reg} {s : State} {r : Result} {b : Key → Bool} {p : Key → Prop} [DecidablePred p]
    (hb : ∀ k, b k = true ↔ p k)
    (h : (15 < (s.reg x).toNat ∧ r = raise (.keyOutOfRange (s.reg x)) s.instrAddr s) ∨
      ∃ k : Key, (s.reg x).toNat = k.val ∧ r = .next (s.skipIf (b k))) :
    (∀ k : Key, (s.reg x).toNat = k.val →
      ∃ t, r = .next t ∧ Unchanged { pc := true } s t ∧ t.pc = if p k then s.instrAddr + 4 else s.instrAddr + 2) ∧
    (15 < (s.reg x).toNat → ∃ t, r = .next t ∧ HaltedAt s t (.keyOutOfRange (s.reg x)) s.instrAddr) := by
  obtain ⟨hout, hraise⟩ | ⟨k, hk, hskip⟩ := h
  · exact ⟨fun k hk => by omega, fun _ => haltedAt_of_raise hraise⟩
  · refine ⟨fun k' hk' => ?_, fun hout => by omega⟩
    obtain rfl : k = k' := Fin.ext (hk.symm.trans hk')
    exact ⟨_, hskip, s.skipIf_skips (hb k)⟩

theorem isHeld_iff {inp : StepInput} {k : Key} : isHeld inp k = true ↔ inp.held[k] = true := Iff.rfl

theorem not_isHeld_iff {inp : StepInput} {k : Key} : (!isHeld inp k) = true ↔ inp.held[k] = false := by
  rw [Bool.not_eq_true']
  rfl

/-- Settles O52: both instructions are key queries, for the held state and for its negation. -/
theorem skipsOnKeysQueryTheHeldState : Obligations.SkipsOnKeysQueryTheHeldState := by
  unfold Obligations.SkipsOnKeysQueryTheHeldState
  refine fun x => ⟨⟨decode_encode (.skp x), decode_encode (.sknp x)⟩, fun s => ?_⟩
  obtain ⟨hskp, hskpErr⟩ := keyQuery_outcome (fun _ => isHeld_iff) (execSkp_cases x s)
  obtain ⟨hsknp, hsknpErr⟩ := keyQuery_outcome (fun _ => not_isHeld_iff) (execSknp_cases x s)
  exact ⟨fun k hk => ⟨hskp k hk, hsknp k hk⟩, fun hout => ⟨hskpErr hout, hsknpErr hout⟩⟩

/-! ### timer moves (R213, R218, R219) -/

theorem State.setDt_unchanged (s : State) (b : Byte) : Unchanged { dt := true } s (s.setDt b) := by
  constructor <;> simp

theorem State.setSt_unchanged (s : State) (b : Byte) : Unchanged { st := true } s (s.setSt b) := by
  constructor <;> simp

/-- Settles O53: each of the three is one write, of a register or of a timer. -/
theorem timerMoves : Obligations.TimerMoves := by
  unfold Obligations.TimerMoves
  refine fun x => ⟨⟨decode_encode (.ldVxDt x), decode_encode (.ldDtVx x), decode_encode (.ldStVx x)⟩, fun s => ⟨?_, ?_, ?_⟩⟩
  · exact ⟨_, rfl, s.writeReg_outcome x s.dt⟩
  · exact ⟨_, rfl, rfl, s.setDt_unchanged _⟩
  · exact ⟨_, rfl, rfl, s.setSt_unchanged _⟩

/-! ### LD Vx, K (R214, R215) -/

theorem State.setPc_setMode_unchanged (s : State) (w : Word) (m : Mode) :
    Unchanged { pc := true, mode := true } s ((s.setPc w).setMode m) := by
  constructor <;> simp

/-- Settles O54: the two cases of LD Vx, K are those of its inversion. -/
theorem ldVxKTakesAKeyOrWaits : Obligations.LdVxKTakesAKeyOrWaits := by
  unfold Obligations.LdVxKTakesAKeyOrWaits
  refine fun x => ⟨decode_encode (.ldVxK x), fun s => ?_⟩
  obtain ⟨hnone, hwait⟩ | ⟨k, hk, htake⟩ := execLdVxK_cases x s
  · exact ⟨fun _ => ⟨_, hwait, rfl, rfl, s.setPc_setMode_unchanged _ _⟩, fun hsome => absurd hnone hsome⟩
  · exact ⟨fun hnone => absurd hnone (List.ne_nil_of_mem hk), fun _ => ⟨k, hk, _, htake, s.writeReg_outcome x _⟩⟩

theorem execLdVxK_of_chooseKey_none (x : Reg) {s : State} (h : chooseKey s.input = none) :
    execLdVxK x s = .next ((s.setPc s.instrAddr).setMode (.waiting x)) := by
  simp [execLdVxK, h]

theorem execLdVxK_of_chooseKey_some (x : Reg) {s : State} {k : Key} (h : chooseKey s.input = some k) :
    execLdVxK x s = .next (s.writeReg x (keyByte k)) := by
  simp [execLdVxK, h]

/-- Settles O55: for some draw the key is the chosen one, and the chosen key is the one taken. -/
theorem everyPressedKeyCanBeTaken : Obligations.EveryPressedKeyCanBeTaken := by
  unfold Obligations.EveryPressedKeyCanBeTaken
  intro x s k hk
  obtain ⟨n, hn⟩ := chooseKey_every hk
  exact ⟨n, _, execLdVxK_of_chooseKey_some x hn, State.reg_writeReg_same _ x _⟩

/-! ### the poll of `WAITING(x)` (R216, R217) -/

theorem pollKey_of_chooseKey_none (x : Reg) {s : State} (h : chooseKey s.input = none) : pollKey x s = s := by
  simp [pollKey, h]

theorem pollKey_of_chooseKey_some (x : Reg) {s : State} {k : Key} (h : chooseKey s.input = some k) :
    pollKey x s = ((s.writeReg x (keyByte k)).advance).setMode .running := by
  simp [pollKey, h]

/-- A poll that takes a key changes `V[x]`, `PC` and `MODE` only. -/
theorem State.keyTaken_unchanged (s : State) (x : Reg) (b : Byte) :
    Unchanged { regs := [x], pc := true, mode := true } s (((s.writeReg x b).advance).setMode .running) :=
  { s.writeReg_unchanged x b with pc := nofun, mode := nofun }

/-- A step asked for in `WAITING(x)` is the key poll, in the state the request is met in (30_encoding.md R81). -/
theorem step_asked_waiting {s t : State} {inp : StepInput} {x : Reg} (hask : s.Asked inp t) (hmode : s.mode = .waiting x) :
    step s = .next (pollKey x t) := by
  obtain ⟨-, -, -, -, -, htmode, -⟩ := Asked.frame hask
  rw [step_asked hask, interpStep, htmode.trans hmode]

/-- Settles O9: the step is a poll of the latched keys, which keeps the state or takes the chosen key. -/
theorem waitingPollsTheKeys : Obligations.WaitingPollsTheKeys := by
  unfold Obligations.WaitingPollsTheKeys
  intro s t inp x hask hmode
  obtain ⟨-, -, hpc, -, -, -, -, -, rfl⟩ := Asked.frame hask
  rw [step_asked_waiting hask hmode]
  cases hchoice : chooseKey t.input with
  | none =>
    rw [pollKey_of_chooseKey_none x hchoice]
    exact ⟨fun _ => rfl, fun hsome => absurd (chooseKey_eq_none.1 hchoice) hsome⟩
  | some k =>
    have hk := chooseKey_mem hchoice
    rw [pollKey_of_chooseKey_some x hchoice]
    refine ⟨fun hnone => absurd hnone (List.ne_nil_of_mem hk), fun _ => ⟨k, hk, _, rfl, ?_, ?_, rfl, t.keyTaken_unchanged x _⟩⟩
    · exact t.reg_writeReg_same x _
    · exact congrArg (· + 2) hpc

/-- The LD Vx, K at `PC`, run again from `RUNNING`, answers what the poll answers (R217): with no key it takes the advance back and waits
in the same state; with a key both write its code and leave `PC` past the instruction. -/
theorem exec_ldVxK_retry {t : State} {x : Reg} (hmode : t.mode = .waiting x) :
    exec (.ldVxK x) (t.setMode .running).advance = .next (pollKey x t) := by
  cases hchoice : chooseKey t.input with
  | none =>
    have hback : t.pc + 2 - 2 = t.pc := BitVec.add_sub_cancel t.pc 2
    have hsame : (t.setPc (t.pc + 2 - 2)).setMode (.waiting x) = t := by
      rw [hback, ← hmode]
      rfl
    rw [pollKey_of_chooseKey_none x hchoice]
    exact (execLdVxK_of_chooseKey_none x (s := (t.setMode .running).advance) hchoice).trans (congrArg _ hsame)
  | some k =>
    rw [pollKey_of_chooseKey_some x hchoice]
    exact execLdVxK_of_chooseKey_some x (s := (t.setMode .running).advance) hchoice

/-- By the invariant the word at `PC` is the LD Vx, K that waits, so the step from `RUNNING` fetches it and runs it again. -/
theorem stepRunning_retry {t : State} {x : Reg} (hinv : t.Inv) (hmode : t.mode = .waiting x) :
    stepRunning (t.setMode .running) = .next (pollKey x t) := by
  obtain ⟨ins, hread, hdec⟩ := hinv.waiting_pc x hmode
  simp only [stepRunning, State.setMode_memRead16, State.setMode_pc, hread, hdec, exec_ldVxK_retry hmode]

theorem tick_setMode (e : Nat) (s : State) (m : Mode) : tick e (s.setMode m) = (tick e s).setMode m := by
  unfold tick
  rw [apply_ite (State.setMode · m)]
  rfl

theorem tickAll_setMode (es : List Nat) (s : State) (m : Mode) : tickAll es (s.setMode m) = (tickAll es s).setMode m := by
  induction es generalizing s with
  | nil => rfl
  | cons e es ih => simp only [tickAll, tick_setMode, ih]

/-- The host's request does not depend on the mode, and is met with the mode as it was. -/
theorem Asked.setMode {s t : State} {inp : StepInput} (h : s.Asked inp t) (m : Mode) :
    (s.setMode m).Asked inp (t.setMode m) := by
  obtain ⟨u, hu, rfl⟩ := h
  have hnext : (s.setMode m).nextRequest = (s.nextRequest.1, s.nextRequest.2.setMode m) := by
    obtain ⟨act, rest, hp, hn⟩ | ⟨hp, hn⟩ := nextRequest_cases s
    · rw [hn, State.nextRequest, State.setMode_pending, hp]
      rfl
    · rw [hn, State.nextRequest, State.setMode_pending, hp]
      simp only [State.setMode_hostDraws, tickAll_setMode]
      rfl
  exact ⟨u.setMode m, by rw [hnext, hu], rfl⟩

/-- Settles O10: the same request is met from `WAITING(x)` and from `RUNNING`, by the poll and by its retry. -/
theorem waitingEqualsRetrying : Obligations.WaitingEqualsRetrying := by
  unfold Obligations.WaitingEqualsRetrying
  intro s x hinv hmode hnotick
  obtain ⟨e, rest, hp, -⟩ | ⟨inp, t, hask, -⟩ := step_cases s
  · exact absurd hp (hnotick e rest)
  · obtain ⟨-, -, hpc, hstack, hfb, htmode, hmem, hcfg, -⟩ := Asked.frame hask
    have htinv : t.Inv := hinv.congr hcfg hmem hfb hstack htmode hpc
    rw [step_asked_waiting hask hmode, step_asked_running (Asked.setMode hask .running) rfl,
      stepRunning_retry htinv (htmode.trans hmode)]

end Sys2Proof.Machine
end

section
/-! SUPPORT and PROOF. Fatal errors (60_exceptions.md R230 to R238): the machine that is halted stays so, a word no row matches halts, and
each error kind comes only from its own instructions and for its own cause. Then the inputs, which four instructions read (R256, R257). -/

namespace Sys2Proof.Machine

/-! ### HALTED is for ever (R238) -/

/-- The states differ in nothing but the timers, the parameters and the model's account of the host. -/
structure SameMachine (s t : State) : Prop where
  mode : t.mode = s.mode
  v : t.v = s.v
  i : t.i = s.i
  pc : t.pc = s.pc
  stack : t.stack = s.stack
  fb : t.fb = s.fb
  mem : t.mem = s.mem

theorem SameMachine.refl (s : State) : SameMachine s s := by constructor <;> rfl

theorem SameMachine.trans {s t u : State} (hst : SameMachine s t) (htu : SameMachine t u) : SameMachine s u where
  mode := htu.mode.trans hst.mode
  v := htu.v.trans hst.v
  i := htu.i.trans hst.i
  pc := htu.pc.trans hst.pc
  stack := htu.stack.trans hst.stack
  fb := htu.fb.trans hst.fb
  mem := htu.mem.trans hst.mem

/-- A step that answers a next state from `HALTED` is a timer tick: an interpreter step faults (R82). -/
theorem step_of_halted {s u : State} {e : ErrorRecord} (hmode : s.mode = .halted e) (h : step s = .next u) :
    ∃ n rest, u = tick n (s.setPending rest) := by
  obtain ⟨n, rest, -, htick⟩ | ⟨inp, t, hask, hstep⟩ := step_cases s
  · cases htick.symm.trans h
    exact ⟨n, rest, rfl⟩
  · obtain ⟨-, -, -, -, -, htmode, -⟩ := Asked.frame hask
    rw [hstep, interpStep, htmode.trans hmode] at h
    cases h

theorem tick_setPending_sameMachine (n : Nat) (rest : List HostAction) (s : State) :
    SameMachine s (tick n (s.setPending rest)) := by
  constructor <;> simp

/-- Settles O12: every step from `HALTED` is a tick, which keeps the machine the same, so the run does. -/
theorem haltedIsForEver : Obligations.HaltedIsForEver := by
  unfold Obligations.HaltedIsForEver
  intro s t e hmode hreach
  have hkeep {t u : State} (hst : SameMachine s t) (hstep : step t = .next u) : SameMachine s u := by
    obtain ⟨n, rest, rfl⟩ := step_of_halted (hst.mode.trans hmode) hstep
    exact hst.trans (tick_setPending_sameMachine n rest t)
  obtain ⟨hmode', hv, hi, hpc, hstack, hfb, hmem⟩ := hreach.kept hkeep (.refl s)
  exact ⟨hmode'.trans hmode, hv, hi, hpc, hstack, hfb, hmem⟩

/-! ### unknown words (R232) -/

/-- Settles O7: the step fetches the same word from the state it is met in, and decode's `UNKNOWN` carries the word it was given. -/
theorem unknownWordHalts : Obligations.UnknownWordHalts := by
  unfold Obligations.UnknownWordHalts
  intro s t inp ins w hask hmode hread hdec
  obtain ⟨-, -, hpc, -, -, -, hmem, hcfg, -⟩ := Asked.frame hask
  obtain ⟨rfl, -⟩ := unknownWord_of_decode hdec
  have hread' : t.memRead16 t.pc.toNat = .ok w := by
    simpa only [State.memRead16, State.byteAt, hpc, hmem, hcfg] using hread
  have hraise : stepRunning t = raise (.unknownInstruction w) t.pc t := by simp [stepRunning, hread', hdec]
  rw [step_asked_running hask hmode, hraise, ← hpc]
  exact raise_haltedAt _ _ t

/-! ### the causes of the errors of instructions (R231, R233 to R237) -/

/-- `k` is `OutOfBounds` at the least address outside memory among the `n` addresses from `I` (R233). -/
def AccessError (s : State) (n : Nat) (k : ErrorKind) : Prop :=
  ∃ a, firstOut s.cfg.memSize s.i.toNat n = some a ∧ k = .outOfBounds a

/-- The table of R231, by instruction: the error kind `i` raises in `s`, with its cause. -/
def ErrorCause (s : State) (k : ErrorKind) : Instr → Prop
  | .ret => k = .stackUnderflow ∧ s.stack = []
  | .call _ => k = .stackOverflow ∧ s.cfg.stackCapacity = some s.stack.length
  | .addI x => k = .indexOverflow ∧ 0xFFFF < s.i.toNat + (s.reg x).toNat
  | .skp x | .sknp x => k = .keyOutOfRange (s.reg x) ∧ 15 < (s.reg x).toNat
  | .drw _ _ n => AccessError s n.toNat k
  | .ldBVx _ => AccessError s 3 k
  | .ldMemVx x | .ldVxMem x => AccessError s (x.val + 1) k
  | .cls | .jp _ | .seByte _ _ | .sneByte _ _ | .seReg _ _ | .sneReg _ _ | .ldByte _ _ | .addByte _ _ | .ldReg _ _ | .orReg _ _
  | .andReg _ _ | .xorReg _ _ | .addReg _ _ | .sub _ _ | .subn _ _ | .shr _ _ | .shl _ _ | .ldI _ | .jpV0 _ | .rnd _ _
  | .ldVxDt _ | .ldVxK _ | .ldDtVx _ | .ldStVx _ => False

/-- The outcome halts a machine that was not halted. -/
def Halts (s : State) (e : ErrorRecord) (r : Result) : Prop := s.live ∧ ∃ t, r = .next t ∧ t.mode = .halted e

theorem Halts.kind_eq {s : State} {e : ErrorRecord} {r : Result} {k : ErrorKind} {a : Word} (h : Halts s e r)
    (hr : r = raise k a s) : e.kind = k := by
  obtain ⟨-, t, ht, hmode⟩ := h
  cases ht.symm.trans hr
  cases hmode
  rfl

theorem Halts.not_completes {s t : State} {e : ErrorRecord} {r : Result} (h : Halts s e r) (hr : r = .next t)
    (hkept : t.mode = s.mode) : False := by
  obtain ⟨hlive, u, hu, hmode⟩ := h
  cases hu.symm.trans hr
  exact hlive e (hkept.symm.trans hmode)

/-- An instruction that halts the machine has the cause of its error: by the inversions of the nine that can fail, and the others never
halt. -/
theorem errorCause_of_halts {i : Instr} {s : State} {e : ErrorRecord} (h : Halts s e (exec i s)) : ErrorCause s e.kind i := by
  cases i with
  | ret =>
    obtain ⟨hempty, hr⟩ | ⟨a, rest, -, ht⟩ := execRet_cases s
    · exact ⟨h.kind_eq hr, hempty⟩
    · exact (h.not_completes ht rfl).elim
  | call nnn =>
    obtain ⟨hfull, hr⟩ | ⟨-, ht⟩ := execCall_cases nnn s
    · exact ⟨h.kind_eq hr, hfull⟩
    · exact (h.not_completes ht rfl).elim
  | addI x =>
    obtain ⟨hover, hr⟩ | ⟨-, ht⟩ := execAddI_cases x s
    · exact ⟨h.kind_eq hr, hover⟩
    · exact (h.not_completes ht rfl).elim
  | skp x =>
    obtain ⟨hout, hr⟩ | ⟨k, -, ht⟩ := execSkp_cases x s
    · exact ⟨h.kind_eq hr, hout⟩
    · exact (h.not_completes ht (s.skipIf_mode _)).elim
  | sknp x =>
    obtain ⟨hout, hr⟩ | ⟨k, -, ht⟩ := execSknp_cases x s
    · exact ⟨h.kind_eq hr, hout⟩
    · exact (h.not_completes ht (s.skipIf_mode _)).elim
  | drw x y n =>
    obtain ⟨a, ha, hr⟩ | ⟨drawn, -, -, ht⟩ := execDrw_cases x y n s
    · exact ⟨a, ha, h.kind_eq hr⟩
    · exact (h.not_completes ht rfl).elim
  | ldBVx x =>
    obtain ⟨a, ha, hr⟩ | ⟨-, ht⟩ := execLdBVx_cases x s
    · exact ⟨a, ha, h.kind_eq hr⟩
    · exact (h.not_completes ht rfl).elim
  | ldMemVx x =>
    obtain ⟨a, ha, hr⟩ | ⟨-, ht⟩ := execLdMemVx_cases x s
    · exact ⟨a, ha, h.kind_eq hr⟩
    · exact (h.not_completes ht (State.bumpI_mode _ x)).elim
  | ldVxMem x =>
    obtain ⟨a, ha, hr⟩ | ⟨-, ht⟩ := execLdVxMem_cases x s
    · exact ⟨a, ha, h.kind_eq hr⟩
    · exact (h.not_completes ht (State.bumpI_mode _ x)).elim
  | ldVxK x =>
    obtain ⟨-, ht⟩ | ⟨k, -, ht⟩ := execLdVxK_cases x s
    · obtain ⟨-, u, hu, hmode⟩ := h
      cases hu.symm.trans ht
      cases hmode
    · exact (h.not_completes ht rfl).elim
  | addReg | sub | subn | shr | shl => exact h.not_completes rfl (State.write2_mode ..)
  | seByte | sneByte | seReg | sneReg => exact h.not_completes rfl (State.skipIf_mode ..)
  | cls | jp | jpV0 | ldByte | addByte | ldReg | orReg | andReg | xorReg | ldI | rnd | ldVxDt | ldDtVx | ldStVx =>
    exact h.not_completes rfl rfl

/-- Settles O14: an instruction that halts has the cause of its row of the table, and the check of an access reports the least address
outside memory. -/
theorem errorsHaveTheirCause : Obligations.ErrorsHaveTheirCause := by
  unfold Obligations.ErrorsHaveTheirCause
  intro i s t e hmode hexec ht
  have hlive : s.live := fun e' he' => by cases hmode.symm.trans he'
  have hcause : ErrorCause s e.kind i := errorCause_of_halts ⟨hlive, t, hexec, ht⟩
  cases i with
  | ret => exact .inl ⟨rfl, hcause⟩
  | call nnn => exact .inr (.inl ⟨⟨nnn, rfl⟩, hcause⟩)
  | addI x => exact .inr (.inr (.inl ⟨x, rfl, hcause⟩))
  | skp x => exact .inr (.inr (.inr (.inl ⟨x, .inl rfl, hcause⟩)))
  | sknp x => exact .inr (.inr (.inr (.inl ⟨x, .inr rfl, hcause⟩)))
  | drw x y n =>
    obtain ⟨a, ha, hkind⟩ := hcause
    exact .inr (.inr (.inr (.inr ⟨_, a, .inl ⟨x, y, n, rfl, rfl⟩, hkind, firstOut_eq_some.1 ha⟩)))
  | ldBVx x =>
    obtain ⟨a, ha, hkind⟩ := hcause
    exact .inr (.inr (.inr (.inr ⟨_, a, .inr (.inl ⟨⟨x, rfl⟩, rfl⟩), hkind, firstOut_eq_some.1 ha⟩)))
  | ldMemVx x =>
    obtain ⟨a, ha, hkind⟩ := hcause
    exact .inr (.inr (.inr (.inr ⟨_, a, .inr (.inr ⟨x, .inl rfl, rfl⟩), hkind, firstOut_eq_some.1 ha⟩)))
  | ldVxMem x =>
    obtain ⟨a, ha, hkind⟩ := hcause
    exact .inr (.inr (.inr (.inr ⟨_, a, .inr (.inr ⟨x, .inr rfl, rfl⟩), hkind, firstOut_eq_some.1 ha⟩)))
  | _ => exact hcause.elim

/-! ### the inputs of a step (R256, R257) -/

theorem setInput_unseen (inp : StepInput) : Unseen (·.setInput inp) := by constructor <;> intros <;> rfl

/-- Settles O20: the latched inputs are unseen by an instruction that reads no input port. -/
theorem onlyFourInstructionsReadInputs : Obligations.OnlyFourInstructionsReadInputs := by
  unfold Obligations.OnlyFourInstructionsReadInputs
  intro i s t inp hreads h
  have hno : readsInput i = true → (s.setInput inp).input = s.input := fun hyes => by cases hreads.symm.trans hyes
  rw [exec_unseen (setInput_unseen inp) i s hno (fun _ _ _ => rfl), h, mapNext]

end Sys2Proof.Machine
end

section
/-! SUPPORT and PROOF. The timer pair (60_exceptions.md R241 to R243): one queued tick, and a run of queued ticks as `tickAll`. -/

namespace Sys2Proof.Machine

/-- Settles O22: the step is the tick, whose two cases are those of its rule. -/
theorem tickFollowsItsRule : Obligations.TickFollowsItsRule := by
  unfold Obligations.TickFollowsItsRule
  intro s e rest hpending
  refine ⟨_, step_tick hpending, ?_⟩
  obtain ⟨hdue, hacc, hdt, hst⟩ | ⟨hearly, hacc, hdt, hst⟩ := tick_cases e (s.setPending rest)
  · simp only [State.setPending_cfg, State.setPending_acc, State.setPending_dt, State.setPending_st] at hdue hacc hdt hst
    refine ⟨fun _ => ⟨by omega, ?_, ?_⟩, fun hearly => by omega, by simp⟩
    · rw [hdt, countDown_toNat]
    · rw [hst, countDown_toNat]
  · exact ⟨fun hdue => absurd hdue (Nat.not_le_of_lt hearly), fun _ => ⟨hacc, hdt, hst⟩, by simp⟩

theorem tick_setPending (e : Nat) (s : State) (l : List HostAction) : (tick e s).setPending l = tick e (s.setPending l) := by
  unfold tick
  rw [apply_ite (State.setPending · l)]
  rfl

/-- A run that serves the queued ticks `es`. -/
theorem run_ticks {s : State} {es : List Nat} {rest : List HostAction} (h : s.pending = es.map .tick ++ rest) :
    Host.Core.run Sys2Proof.core es.length s = .next (tickAll es (s.setPending rest)) := by
  induction es generalizing s with
  | nil =>
    obtain rfl : s.pending = rest := h
    rfl
  | cons e es ih =>
    rw [List.length_cons, run_succ (step_tick h), ih (by simp), tick_setPending]
    rfl

/-- Ticks that each reach the threshold take one off each counter, every time. -/
theorem tickAll_spaced {es : List Nat} {s : State} (h : ∀ e ∈ es, s.cfg.clockHz ≤ s.cfg.timerHz * e) :
    (tickAll es s).dt.toNat = s.dt.toNat - es.length ∧ (tickAll es s).st.toNat = s.st.toNat - es.length := by
  induction es generalizing s with
  | nil => exact ⟨rfl, rfl⟩
  | cons e es ih =>
    obtain ⟨hhead, htail⟩ := List.forall_mem_cons.1 h
    obtain ⟨hdt, hst⟩ := ih (s := tick e s) (by simpa using htail)
    obtain ⟨-, -, hdt', hst'⟩ | ⟨hearly, -⟩ := tick_cases e s
    · rw [hdt', countDown_toNat] at hdt
      rw [hst', countDown_toNat] at hst
      simp only [tickAll, List.length_cons]
      omega
    · omega

/-- Settles O23: the run is the ticks in order, each of which reaches the threshold. -/
theorem spacedTicksCountDown : Obligations.SpacedTicksCountDown := by
  unfold Obligations.SpacedTicksCountDown
  intro s es rest hpending hspaced
  exact ⟨_, run_ticks hpending, by simp, tickAll_spaced hspaced⟩

/-- The account of a sequence of ticks: some number of them, at most all, reached the threshold; each took `CLOCK_HZ` out of the
accumulated time and one off each counter. -/
theorem tickAll_account (es : List Nat) (s : State) :
    ∃ k ≤ es.length, (tickAll es s).acc + k * s.cfg.clockHz = s.acc + s.cfg.timerHz * es.sum ∧
      (tickAll es s).dt.toNat = s.dt.toNat - k ∧ (tickAll es s).st.toNat = s.st.toNat - k := by
  induction es generalizing s with
  | nil => exact ⟨0, by simp [tickAll]⟩
  | cons e es ih =>
    obtain ⟨k, hk, hacc, hdt, hst⟩ := ih (tick e s)
    rw [tick_cfg] at hacc
    simp only [tickAll, List.length_cons, List.sum_cons, Nat.mul_add]
    obtain ⟨-, hacc', hdt', hst'⟩ | ⟨-, hacc', hdt', hst'⟩ := tick_cases e s
    · rw [hdt', countDown_toNat] at hdt
      rw [hst', countDown_toNat] at hst
      refine ⟨k + 1, by omega, ?_, by omega, by omega⟩
      rw [Nat.add_mul]
      omega
    · rw [hdt'] at hdt
      rw [hst'] at hst
      exact ⟨k, by omega, by omega, hdt, hst⟩

/-- Settles O24: the run is the ticks in order, and their account is kept. -/
theorem ticksLoseNoTime : Obligations.TicksLoseNoTime := by
  unfold Obligations.TicksLoseNoTime
  intro s es rest hpending
  obtain ⟨k, hk, haccount⟩ := tickAll_account es (s.setPending rest)
  exact ⟨_, k, run_ticks hpending, hk, haccount⟩

end Sys2Proof.Machine
end

section
/-! SUPPORT and PROOF. The render snapshot (60_exceptions.md R258): the grid in row-major order. -/

namespace Sys2Proof.Machine

section
variable {α : Type} {w : Nat} {rows : List (List α)} (hw : ∀ row ∈ rows, row.length = w)
include hw

theorem length_flatten_of_rows : rows.flatten.length = rows.length * w := by
  rw [List.length_flatten, List.map_congr_left hw, List.map_const', List.sum_replicate, smul_eq_mul]

/-- Column `x` of row `y` stands at `y * w + x` when the rows of length `w` are laid one after another. -/
theorem getElem?_flatten_of_rows {x : Nat} (hx : x < w) (y : Nat) : rows.flatten[y * w + x]? = (rows.getD y [])[x]? := by
  induction rows generalizing y with
  | nil => simp
  | cons row rows ih =>
    obtain ⟨hrow, hrest⟩ := List.forall_mem_cons.1 hw
    rw [List.flatten_cons]
    cases y with
    | zero =>
      rw [List.getElem?_append_left (by omega)]
      simp
    | succ y =>
      rw [List.getElem?_append_right (by rw [hrow, Nat.succ_mul]; omega), List.getD_cons_succ, ← ih hrest]
      congr 1
      rw [hrow, Nat.succ_mul]
      omega

end

/-- Settles O59: the registers are the vector's list, and the grid of the invariant is laid out row by row. -/
theorem snapshotShowsRegistersAndPixels : Obligations.SnapshotShowsRegistersAndPixels := by
  unfold Obligations.SnapshotShowsRegistersAndPixels
  intro s hinv
  refine ⟨by simp [State.snapshot], fun r => ?_, ?_, fun x y hx hy => ?_, rfl⟩
  · simp [State.snapshot, State.reg, Vector.get]
  · rw [← hinv.fb_rows]
    exact length_flatten_of_rows hinv.fb_cols
  · have hcell : (s.fb.getD y [])[x]? = some (Framebuffer.pixel s.fb x y) := by
      have hlen : x < (s.fb.getD y []).length := by
        rw [List.getD_eq_getElem _ _ (hinv.fb_rows ▸ hy), hinv.fb_cols _ (List.getElem_mem _)]
        exact hx
      rw [Framebuffer.pixel, List.getD_eq_getElem _ _ hlen, List.getElem?_eq_getElem hlen]
    exact (getElem?_flatten_of_rows hinv.fb_cols hx y).trans hcell

end Sys2Proof.Machine
end

section
/-! SUPPORT and PROOF. Construction and the state after reset (70_reset_and_hazards.md R270 to R280). -/

namespace Sys2Proof.Machine

/-! ### the initial memory (R279) -/

theorem Memory.read_initialMemory (initMem : Nat → Byte) (n a : Nat) :
    Memory.read (initialMemory initMem n) a = if a < n then initMem a else Memory.blank := by
  induction n with
  | zero => rfl
  | succ n ih =>
    rw [initialMemory, Memory.read_write, ih]
    obtain hlt | rfl | hgt := Nat.lt_trichotomy a n
    · rw [if_neg hlt.ne, if_pos hlt, if_pos (by omega)]
    · rw [if_pos rfl, if_pos a.lt_succ_self]
    · rw [if_neg hgt.ne', if_neg hgt.asymm, if_neg (by omega)]

theorem initialMemory_wf (initMem : Nat → Byte) (n : Nat) : Memory.wf (initialMemory initMem n) := by
  induction n with
  | zero => exact ⟨.nil, fun c hc => absurd hc List.not_mem_nil⟩
  | succ n ih => exact Memory.write_wf ih n (initMem n)

theorem initialMemory_inside {initMem : Nat → Byte} {n : Nat} {c : Host.Cell} (h : c ∈ initialMemory initMem n) : c.1 < n := by
  induction n with
  | zero => exact absurd h List.not_mem_nil
  | succ n ih =>
    obtain hold | rfl := Memory.mem_write h
    · exact (ih hold).trans n.lt_succ_self
    · exact n.lt_succ_self

/-- A fill of the blank byte lists nothing. -/
theorem initialMemory_blank (n : Nat) : initialMemory (fun _ => Memory.blank) n = [] := by
  induction n with
  | zero => rfl
  | succ n ih => rw [initialMemory, ih]; rfl

/-! ### what construction answers (R280) -/

/-- The state construction gives before the image is loaded. -/
def State.unloaded (c : Config) (initMem : Nat → Byte) : State :=
  { State.reset with
    pc := BitVec.ofNat 16 c.loadBase
    fb := Framebuffer.clear c.fbW c.fbH
    mem := initialMemory initMem c.memSize
    cfg := c }

/-- Legal parameters and an image that fits: the image is written at `LOAD_BASE` (R271). -/
theorem State.construct_of_fits {c : Config} {image : List Byte} (initMem : Nat → Byte) (hwf : c.wf = true)
    (hfit : c.loadBase + image.length ≤ c.memSize) :
    State.construct c initMem image =
      some ((State.unloaded c initMem).setMem (Memory.writeMany (State.unloaded c initMem).mem c.loadBase image)) := by
  have hlegal : (c.wf && c.imageFits image) = true := by simp [hwf, Config.imageFits, hfit]
  exact if_pos hlegal

/-- Settles O56: an image that ends beyond memory fails the check of its size. -/
theorem tooLargeImageIsRefused : Obligations.TooLargeImageIsRefused := by
  unfold Obligations.TooLargeImageIsRefused
  intro c initMem image hlarge
  have hrefuse : ¬(c.wf && c.imageFits image) = true := by simp [Config.imageFits, hlarge]
  exact if_neg hrefuse

/-! ### the constructed state -/

/-- Legal parameters place `LOAD_BASE` inside memory and within the program counter that is loaded with it (R9, R270; log 11). -/
theorem Config.loadBase_bounds {c : Config} (h : c.wf = true) : c.loadBase + 1 < c.memSize ∧ c.loadBase < 0x10000 := by
  simp only [Config.wf, Bool.and_eq_true, decide_eq_true_eq] at h
  omega

theorem State.unloaded_dataInv {c : Config} (initMem : Nat → Byte) (hwf : c.wf = true) : (State.unloaded c initMem).DataInv where
  cfg_wf := hwf
  mem_wf := initialMemory_wf initMem c.memSize
  mem_in _ hc := initialMemory_inside hc
  fb_sized := Framebuffer.clear_sized c.fbW c.fbH
  stack_cap n _ := n.zero_le

theorem State.unloaded_pc {c : Config} (initMem : Nat → Byte) (hwf : c.wf = true) :
    (State.unloaded c initMem).pc.toNat = c.loadBase :=
  (BitVec.toNat_ofNat c.loadBase 16).trans (Nat.mod_eq_of_lt (Config.loadBase_bounds hwf).2)

theorem State.unloaded_byteAt {c : Config} (initMem : Nat → Byte) {a : Nat} (ha : a < c.memSize) :
    (State.unloaded c initMem).byteAt a = initMem a :=
  (Memory.read_initialMemory initMem c.memSize a).trans (if_pos ha)

theorem State.reset_reg (r : Reg) : State.reset.reg r = 0x00 := by
  simp [State.reset, State.reg, Vector.get]

/-- Settles O57: the image is written inside a memory of `INIT_MEM`, and everything else is as at reset. -/
theorem constructionEstablishesTheResetState : Obligations.ConstructionEstablishesTheResetState := by
  unfold Obligations.ConstructionEstablishesTheResetState
  intro c initMem image hwf hfit
  have hinv := ((State.unloaded_dataInv initMem hwf).setMem_writeMany hfit).inv_of_running rfl
  refine ⟨_, State.construct_of_fits initMem hwf hfit, rfl, hinv, State.unloaded_pc initMem hwf, State.reset_reg, rfl, rfl, rfl, rfl,
    rfl, Framebuffer.pixel_clear c.fbW c.fbH, rfl, fun k hk => ?_, fun a ha hout => ?_⟩
  · rw [State.byteAt_setMem_writeMany, if_pos ⟨Nat.le_add_right .., Nat.add_lt_add_left hk _⟩, Nat.add_sub_cancel_left]
  · rw [State.byteAt_setMem_writeMany, if_neg (by omega), State.unloaded_byteAt initMem ha]

/-! ### the state after reset -/

theorem Config.tobinioV7_wf {clockHz : Nat} (h : 1 ≤ clockHz) : (Config.tobinioV7 clockHz).wf = true := by
  simp [Config.wf, Config.tobinioV7, h]

theorem State.reset_cfg_wf : State.reset.cfg.wf = true :=
  Config.tobinioV7_wf (Nat.le_add_left 1 Config.freeClockHzPred)

/-- The empty image always fits and writes nothing. -/
theorem State.construct_nil {c : Config} (initMem : Nat → Byte) (hwf : c.wf = true) :
    State.construct c initMem [] = some (State.unloaded c initMem) :=
  State.construct_of_fits initMem hwf (Nat.le_of_succ_le (Config.loadBase_bounds hwf).1.le)

theorem State.unloaded_blank : State.unloaded State.reset.cfg (fun _ => Memory.blank) = State.reset :=
  congrArg State.reset.setMem (initialMemory_blank State.reset.cfg.memSize)

/-- Settles O58: a fill of zeros lists no byte, and the empty image writes none. -/
theorem resetIsAConstruction : Obligations.ResetIsAConstruction := by
  unfold Obligations.ResetIsAConstruction
  exact (State.construct_nil _ State.reset_cfg_wf).trans (congrArg some State.unloaded_blank)

/-- Settles O15: the state after reset has the data of a construction and runs; its stack is empty and its `PC` is 0x200. -/
theorem resetMeetsTheInvariant : Obligations.ResetMeetsTheInvariant := by
  unfold Obligations.ResetMeetsTheInvariant
  have hdata : State.reset.DataInv := State.unloaded_blank ▸ State.unloaded_dataInv _ State.reset_cfg_wf
  have hbound : State.reset.PcBound := ⟨by decide, fun a ha => absurd ha List.not_mem_nil, by decide⟩
  exact ⟨hdata.inv_of_running rfl, hbound⟩

end Sys2Proof.Machine
end
